-- ==== Sys2Proof/Word.lean ====
section
/-! DEFINITION. The bit vectors of the block: the byte of R9, the 3-bit code and the 9-bit request word of R80 and R81.
Every value of the block is an unsigned integer and no operation is signed (R12). -/

namespace Sys2Proof

/-- One byte, 8 bits (R9, "byte width"). -/
abbrev Byte := BitVec 8

/-- A 3-bit field of the request word: a mode code or a level code (R81). -/
abbrev Code := BitVec 3

/-- The request word `req_word[8:0]` (R80). -/
abbrev ReqWord := BitVec 9

/-- The values of one command frame that vary from frame to frame: frame bytes 1 to 4 of R85. Byte 0 is the constant
BEGIN, which is not stored (R31). -/
structure Frame where
  mode : Byte
  bright : Byte
  speed : Byte
  checksum : Byte
  deriving DecidableEq, Repr

end Sys2Proof
end

