-- ==== Sys2Proof/Config.lean ====
section
/-! DEFINITION. What is fixed for the block: the inter-byte delay of R8, the baud rate and the clock of R7; and the one
free value, the unspecified contents of the frame registers after a reset edge (R50, 93 U8).
`BIT_TICKS` (R7) is an argument of the model: it is the field `bitTicks` of `State` (log entry 1). -/

namespace Sys2Proof.Config

/-- `GAP_BITS`, the length of the inter-byte delay in bit periods (R8: "The value this hardware takes is 50"). -/
abbrev gapBits : Nat := 50

/-- The line rate, 10000 bit periods a second (R2, R7). -/
def baud : Nat := 10000

/-- `F_CLK = 10000 * BIT_TICKS` Hz (R7, R20). -/
def clockHz (bitTicks : Nat) : Nat := baud * bitTicks

/-- The line time of `n` bit periods in microseconds at the nominal clock (R7: one bit period is exactly 100 µs). -/
def bitPeriodsMicros (n : Nat) : Nat := n * (1000000 / baud)

/-- The unspecified contents of the four frame registers after a reset edge (R50, R210; 93 U8: "any value"). The first
argument is the state's `resetDraw`, the second the register (0 `fb_mode`, 1 `fb_bright`, 2 `fb_speed`, 3 `acc`).
A free value: it has no body, so nothing can be proved of what it is (log entry 3). -/
opaque resetByte : Nat → Fin 4 → Byte

end Sys2Proof.Config
end

