-- ==== Sys2Proof/Syntax.lean ====
section
/-! DEFINITION. The instructions: one constructor for each row of the opcode table, with the row's two operands
(R11, R88). -/

namespace Sys2Proof

/-- The five lighting modes, in the order of R82. -/
inductive Mode where
  | off
  | auto
  | rainbow
  | breathing
  | cycle
  deriving DecidableEq, Repr

/-- The SEND instructions (R88, R120 to R124). The operands are the brightness level code `req_word[5:3]` and the speed
level code `req_word[8:6]`, each at any value its three bits can hold: a code outside 1 to 5 is an operand on which the
instruction takes the ERR_CONFIG exception (R84, R88), not a different instruction. -/
inductive Instr where
  /-- `SEND.OFF b, s` (R120). -/
  | sendOff (bright speed : Code)
  /-- `SEND.AUTO b, s` (R121). -/
  | sendAuto (bright speed : Code)
  /-- `SEND.RAINBOW b, s` (R122). -/
  | sendRainbow (bright speed : Code)
  /-- `SEND.BREATHING b, s` (R123). -/
  | sendBreathing (bright speed : Code)
  /-- `SEND.CYCLE b, s` (R124). -/
  | sendCycle (bright speed : Code)
  deriving DecidableEq, Repr

/-- The lighting mode an instruction sends. -/
def Instr.mode : Instr → Mode
  | .sendOff _ _ => .off
  | .sendAuto _ _ => .auto
  | .sendRainbow _ _ => .rainbow
  | .sendBreathing _ _ => .breathing
  | .sendCycle _ _ => .cycle

/-- The brightness operand. -/
def Instr.bright : Instr → Code
  | .sendOff b _ => b
  | .sendAuto b _ => b
  | .sendRainbow b _ => b
  | .sendBreathing b _ => b
  | .sendCycle b _ => b

/-- The speed operand. -/
def Instr.speed : Instr → Code
  | .sendOff _ s => s
  | .sendAuto _ s => s
  | .sendRainbow _ s => s
  | .sendBreathing _ s => s
  | .sendCycle _ s => s

end Sys2Proof
end

