-- ==== Sys2Proof/Machine/Operands.lean ====
section
/-! DEFINITION. The operand side of the frame encoder: the fields of the request word (R81, R89), the two lookup tables
(R100, R101), the validity predicate (R104), the checksum (R105, R107) and the frame built from them (R108). -/

namespace Sys2Proof.Machine

/-- `u8(x)`, the 8-bit wraparound of a non-negative integer (R12). -/
def u8 (x : Nat) : Byte := BitVec.ofNat 8 x

/-- The BEGIN byte, a constant that no register holds (R31). -/
def beginByte : Byte := 0xFA

/-- `req_word[2:0]`, the mode code (R81). -/
def modeField (w : ReqWord) : Code := w.extractLsb' 0 3

/-- `req_word[5:3]`, the brightness level code (R81). -/
def brightField (w : ReqWord) : Code := w.extractLsb' 3 3

/-- `req_word[8:6]`, the speed level code (R81). -/
def speedField (w : ReqWord) : Code := w.extractLsb' 6 3

/-- The mode code of a mode: its position in the listing of R82, which is not the byte sent. -/
def modeCode : Mode → Code
  | .off => 0
  | .auto => 1
  | .rainbow => 2
  | .breathing => 3
  | .cycle => 4

/-- The device mode byte of a mode (R100, second and third columns). -/
def modeByte : Mode → Byte
  | .off => 0x04
  | .auto => 0x05
  | .rainbow => 0x01
  | .breathing => 0x02
  | .cycle => 0x03

/-- The mode a mode code stands for; codes 5, 6 and 7 stand for none (R82). -/
def modeOfCode (c : Code) : Option Mode :=
  match c with
  | 0 => some .off
  | 1 => some .auto
  | 2 => some .rainbow
  | 3 => some .breathing
  | 4 => some .cycle
  | _ => none

/-- `MODE_TABLE`: eight entries indexed by mode code, five defined (R63, R100). `none` is an undefined entry. -/
def modeTable (c : Code) : Option Byte := (modeOfCode c).map modeByte

/-- `LEVEL_TABLE`: eight entries indexed by level code, five defined (R63, R101), one table for brightness and speed
(R103). `none` is an undefined entry. -/
def levelTable (c : Code) : Option Byte :=
  match c with
  | 1 => some 0x05
  | 2 => some 0x04
  | 3 => some 0x03
  | 4 => some 0x02
  | 5 => some 0x01
  | _ => none

/-- A level code that is a level, 1 to 5 (R83). -/
def levelValid (c : Code) : Bool := decide (1 ≤ c.toNat) && decide (c.toNat ≤ 5)

/-- `valid(w)`, the validity predicate on a request word (R84, R104). -/
def validWord (w : ReqWord) : Bool :=
  decide ((modeField w).toNat ≤ 4) && levelValid (brightField w) && levelValid (speedField w)

/-- The unreduced sum of the first four frame bytes, `0xFA + mb + bb + sb` (R105, R106). -/
def frameSum (mb bb sb : Byte) : Nat := beginByte.toNat + mb.toNat + bb.toNat + sb.toNat

/-- `checksum(mb, bb, sb)`, the 8-bit wraparound sum of the first four frame bytes (R105). -/
def checksum (mb bb sb : Byte) : Byte := u8 (frameSum mb bb sb)

/-- What the accumulator `acc` is written with: three 8-bit wraparound additions that start from BEGIN (R107). -/
def accumulate (mb bb sb : Byte) : Byte := beginByte + mb + bb + sb

/-- The frame of a mode and two level codes (R108), or `none` where a level code has no table entry: exactly the operands
that R104 calls invalid. -/
def frameOf (m : Mode) (b s : Code) : Option Frame :=
  match levelTable b, levelTable s with
  | some bb, some sb => some ⟨modeByte m, bb, sb, accumulate (modeByte m) bb sb⟩
  | _, _ => none

/-- The five bytes of a frame in offset order (R64, R85). -/
def frameBytes (f : Frame) : List Byte := [beginByte, f.mode, f.bright, f.speed, f.checksum]

/-- `encode(w)`, the encoder function on request words (R108); `none` where `valid(w)` does not hold. -/
def encodeRequest (w : ReqWord) : Option (List Byte) :=
  match modeOfCode (modeField w) with
  | some m => (frameOf m (brightField w) (speedField w)).map frameBytes
  | none => none

end Sys2Proof.Machine
end

