-- ==== Sys2Proof/WellFormed.lean ====
section
/-! DEFINITION. The instructions an assembler writes: both levels are levels, 1 to 5 (R90). A word whose mode field selects
a SEND and whose level field is not a level still decodes (R88); its instruction is not well formed and ends in
ERR_CONFIG. -/

namespace Sys2Proof

/-- Both operands are levels 1 to 5 (R83, R90: "An assembler refuses a `<b>` or `<s>` outside 1 to 5"). -/
def Instr.wellFormed (i : Instr) : Bool :=
  Machine.levelValid i.bright && Machine.levelValid i.speed

end Sys2Proof
end

