-- ==== Sys2Proof/Decode.lean ====
section
/-! DEFINITION. The decoder of request words, total, rejecting by name (R84, R88), and the encoder written from the same
table (R81, R90). -/

namespace Sys2Proof

/-- Why a word is no instruction. -/
inductive DecodeError where
  /-- The mode field is 5, 6 or 7: the request is invalid and ends in ERR_CONFIG (R82, R88, R182). -/
  | invalidMode (code : Code)
  /-- The number has a bit above bit 8, where a request word has none (R80). -/
  | tooWide (w : Nat)
  deriving DecidableEq, Repr

/-- The instruction of a mode with its two operands. -/
def instrOf (m : Mode) (b s : Code) : Instr :=
  match m with
  | .off => .sendOff b s
  | .auto => .sendAuto b s
  | .rainbow => .sendRainbow b s
  | .breathing => .sendBreathing b s
  | .cycle => .sendCycle b s

/-- Decoding is by the mode field alone; the other two fields are the operands (R88). -/
def decode (w : ReqWord) : Except DecodeError Instr :=
  match Machine.modeOfCode (Machine.modeField w) with
  | some m => .ok (instrOf m (Machine.brightField w) (Machine.speedField w))
  | none => .error (.invalidMode (Machine.modeField w))

/-- Decoding of a number whose bits are a request word's, bit 0 the least significant (R80, R81). -/
def decodeBits (w : Nat) : Except DecodeError Instr :=
  if w < 512 then decode (BitVec.ofNat 9 w) else .error (.tooWide w)

/-- The instruction read from a word of `nbits` bits whose value is `w`. -/
def decodeTableWord (nbits w : Nat) : Option Instr :=
  match decodeBits (w % 2 ^ nbits) with
  | .ok i => some i
  | .error _ => none

/-- The request word of an instruction, `{s[2:0], b[2:0], modecode[2:0]}` (R90). -/
def encode (i : Instr) : ReqWord :=
  i.speed ++ i.bright ++ Machine.modeCode i.mode

end Sys2Proof
end

