-- ==== Sys2Proof/Machine/State.lean ====
section
/-! DEFINITION. The state of the block: the registers of `10_state.md` (R26 to R39), the levels on its input ports (R21 to
R23), and what the host will drive later (R11: a program is a timed sequence of input values). All of it is plain data. -/

namespace Sys2Proof.Machine

/-- The sequencer's phase (R26). A 2-bit register whose value 3 is no state of the model. -/
inductive Phase where
  /-- No transaction; the line is at mark. -/
  | idle
  /-- A character is on the line. -/
  | bit
  /-- The inter-byte delay is running after byte `idx`. -/
  | gap
  deriving DecidableEq, Repr

/-- The outcome register's values (R37, R180). A 3-bit register whose values 5 to 7 are never written. -/
inductive Status where
  /-- No request has completed since reset. -/
  | none
  /-- All 5 bytes were sent. -/
  | ok
  /-- The request was invalid; no byte was sent. -/
  | errConfig
  /-- The channel was not open at acceptance; no byte was sent. -/
  | errPort
  /-- The channel failed before byte `sent_count`. -/
  | errTx
  deriving DecidableEq, Repr

/-- The registers of CORE. -/
structure Regs where
  /-- `phase`, the sequencer state (R26). -/
  phase : Phase
  /-- `idx`, the offset of the frame byte being sent or just sent (R27). -/
  idx : Fin 5
  /-- `bitpos`, the slot of the character on the line (R28). -/
  bitpos : Fin 10
  /-- `tick`, the baud counter (R29). Its bound `tick < BIT_TICKS` is a clause of `Regs.legal`, since `BIT_TICKS` is an
  argument of the model. -/
  tick : Nat
  /-- `gapcnt`, the inter-byte delay timer (R30). -/
  gapcnt : Fin Config.gapBits
  /-- `fb_mode`, frame byte 1 (R32). -/
  fbMode : Byte
  /-- `fb_bright`, frame byte 2 (R33). -/
  fbBright : Byte
  /-- `fb_speed`, frame byte 3 (R34). -/
  fbSpeed : Byte
  /-- `acc`, the checksum accumulator, frame byte 4 (R35). -/
  acc : Byte
  /-- `status`, the outcome of the last transaction that completed (R37). -/
  status : Status
  /-- `sent_count`, the number of frame bytes whose stop bit has ended (R38). -/
  sentCount : Fin 6
  /-- `done_r`, 1 for the one cycle after a completing edge (R39). -/
  doneR : Bool
  deriving DecidableEq, Repr

/-- The levels on the input ports during one cycle, which the edge that ends the cycle samples (R13). -/
structure Pins where
  /-- `rst`, the synchronous reset (R22). -/
  rst : Bool
  /-- `req_valid` (R21). -/
  reqValid : Bool
  /-- `req_word` (R21). -/
  reqWord : ReqWord
  /-- `chan_ok`, the channel is open and writable (R23). -/
  chanOk : Bool
  deriving DecidableEq, Repr

/-- The state of the model: CORE, its input ports, and the model's own three fields. -/
structure State where
  /-- The registers of CORE. -/
  core : Regs
  /-- The input levels of the current cycle. -/
  pins : Pins
  /-- The model's own: the input levels the host drives in the cycles to come, one entry a cycle; after the last entry
  the levels stay as they are (log entry 2). -/
  stimulus : List Pins
  /-- `BIT_TICKS`, the implementation parameter of R7, an argument of the model: no step changes it (log entry 1). -/
  bitTicks : Nat
  /-- The model's own: which draw of `Config.resetByte` the next reset edge takes (log entry 3). -/
  resetDraw : Nat
  deriving DecidableEq, Repr

/-- The faults of the machine: none. CORE "never faults and never refuses" (R152): its error outcomes are next states
(R180), no access is addressed (R69) and no operation is undefined, so this closed type has no constructor. Safe. -/
inductive Fault where
  deriving DecidableEq, Repr

/-- The refusals of the machine. -/
inductive Refusal where
  /-- The instruction has no meaning in the model. Raised by no arm of `exec`; kept for the host's form. Safe. -/
  | notModelled (mnemonic : String)
  /-- Raised by `step` in a value of the state type outside the set of R40 ("A state outside this set is not a state of
  CORE, and the model gives it no step"; 93 U10). No run from reset reaches one. Safe. -/
  | notAState
  /-- Raised by `runFromPowerUp` for a host program that applies an edge before its first reset edge (R213: a model "has no
  meaning for a run that does not begin with at least one reset edge, and refuses such a run"). Safe. -/
  | noReset
  deriving DecidableEq, Repr

/-- The registers after reset (R50). The four frame registers, which R50 leaves unspecified, hold 0 here, the value that log
entry 4 names. -/
def Regs.reset : Regs where
  phase := .idle
  idx := 0
  bitpos := 0
  tick := 0
  gapcnt := 0
  fbMode := 0
  fbBright := 0
  fbSpeed := 0
  acc := 0
  status := .none
  sentCount := 0
  doneR := false

/-- Quiet input ports: no reset, no request, the channel up (log entry 5). -/
def Pins.quiet : Pins where
  rst := false
  reqValid := false
  reqWord := 0
  chanOk := true

/-- The machine right after reset, for a given `BIT_TICKS`. -/
def State.resetAt (bitTicks : Nat) : State where
  core := Regs.reset
  pins := Pins.quiet
  stimulus := []
  bitTicks := bitTicks
  resetDraw := 0

/-- The machine right after reset (R50, R213), at the `BIT_TICKS = 1` of `95_test_vectors.md` (log entry 1). -/
def State.reset : State := State.resetAt 1

end Sys2Proof.Machine
end

