-- ==== Sys2Proof/Machine/Flags.lean ====
section
/-! DEFINITION. The outputs as functions of the state (R24, R46 to R48, R141), the numeric codes of the phase and of the
outcome (R26, R37), and the set of values the registers can hold (R40). The block has no other flags (R41): no carry or
overflow of the checksum is kept (R105). -/

namespace Sys2Proof.Machine

/-- The 2-bit code of a phase (R26). -/
def Phase.code : Phase → BitVec 2
  | .idle => 0
  | .bit => 1
  | .gap => 2

/-- The 3-bit code of an outcome (R37, R180). -/
def Status.code : Status → BitVec 3
  | .none => 0
  | .ok => 1
  | .errConfig => 2
  | .errPort => 3
  | .errTx => 4

/-- `busy = (phase != IDLE)` (R46). -/
def Regs.busy (r : Regs) : Bool := decide (r.phase ≠ .idle)

/-- `req_ready = (phase = IDLE) and (rst = 0)` (R47). -/
def Regs.reqReady (r : Regs) (rst : Bool) : Bool := decide (r.phase = .idle) && !rst

/-- `sel_byte(i)`, the frame byte at offset `i`, read from the frame buffer (R61). -/
def Regs.selByte (r : Regs) (i : Fin 5) : Byte :=
  match i with
  | 0 => beginByte
  | 1 => r.fbMode
  | 2 => r.fbBright
  | 3 => r.fbSpeed
  | 4 => r.acc

/-- `char_slot(v, j)`, the line value of slot `j` of the character of byte `v`: start bit, data bits least significant
first, stop bit (R86, R87). -/
def charSlot (v : Byte) (j : Fin 10) : Bool :=
  if j.val = 0 then false
  else if j.val ≤ 8 then v.getLsbD (j.val - 1)
  else true

/-- `txd`, the serial line (R141). -/
def Regs.txd (r : Regs) : Bool :=
  match r.phase with
  | .bit => charSlot (r.selByte r.idx) r.bitpos
  | .idle => true
  | .gap => true

/-- The frame in the frame registers (R36). -/
def Regs.frame (r : Regs) : Frame := ⟨r.fbMode, r.fbBright, r.fbSpeed, r.acc⟩

/-- The values of the output ports during one cycle (R24), which are also the observation of that cycle (R154). -/
structure Outputs where
  txd : Bool
  reqReady : Bool
  busy : Bool
  done : Bool
  status : BitVec 3
  sentCount : BitVec 3
  deriving DecidableEq, Repr

/-- The outputs in a state (R24, R48). -/
def State.outputs (s : State) : Outputs where
  txd := s.core.txd
  reqReady := s.core.reqReady s.pins.rst
  busy := s.core.busy
  done := s.core.doneR
  status := s.core.status.code
  sentCount := BitVec.ofNat 3 s.core.sentCount.val

/-- The clauses of R40 on the counters, those that the field types do not already carry. -/
def Regs.inRange (r : Regs) (bitTicks : Nat) : Bool :=
  decide (r.tick < bitTicks) &&
  match r.phase with
  | .gap => decide (r.idx.val ≤ 3) && decide (r.sentCount.val = r.idx.val + 1)
  | .bit => decide (r.sentCount.val = r.idx.val)
  | .idle => true

/-- The last clause of R40: `status = ERR_TX` implies `1 <= sent_count <= 4`. -/
def Regs.errTxCounted (r : Regs) : Bool := decide (r.status = .errTx → 1 ≤ r.sentCount.val ∧ r.sentCount.val ≤ 4)

/-- The set of R40, every clause as written and in every phase. -/
def Regs.r40 (r : Regs) (bitTicks : Nat) : Bool := r.inRange bitTicks && r.errTxCounted

/-- The first character of a transaction is on the line. -/
def Regs.inFirstCharacter (r : Regs) : Bool := decide (r.phase = .bit ∧ r.idx = 0)

/-- The states that have a step: the set of R40, in which its last clause is excused in the first character of a transaction
and nowhere else. There R110 has cleared `sent_count` and R37 keeps the ERR_TX of the transaction before (log entry 6). -/
def Regs.legal (r : Regs) (bitTicks : Nat) : Bool :=
  r.inRange bitTicks && (r.errTxCounted || r.inFirstCharacter)

end Sys2Proof.Machine
end

