-- ==== Sys2Proof/Machine/Ops.lean ====
section
/-! DEFINITION. The named operations of one clock edge: ending a request with an outcome (R181), the accepting edge (R110),
the sequencer's edges (R142 to R150), reset (R210), and the host's side of an edge (the request port, the next input
levels). Each is written once; the instructions and the step call them. -/

namespace Sys2Proof.Machine

/-! ### Register writes, one operation for each write of the rules -/

/-- `raise E(sent = n)`: end the request with outcome `E`. It writes `status`, `sent_count`, `phase` and `done_r`, and
nothing else (R14, R181). This is how the block takes an exception; it saves the outcome and the byte count and there is
no return from it (R187, R188). -/
def Regs.raise (r : Regs) (e : Status) (n : Fin 6) : Regs :=
  { r with status := e, sentCount := n, phase := .idle, doneR := true }

/-- An edge that changes nothing but `done_r <- 0` (R39, R142). -/
def Regs.quiet (r : Regs) : Regs :=
  { r with doneR := false }

/-- The third branch of R110: write the frame registers, clear the counters, and begin the start bit of byte 0. `status`
is not written. -/
def Regs.start (r : Regs) (f : Frame) : Regs :=
  { r with
    fbMode := f.mode, fbBright := f.bright, fbSpeed := f.speed, acc := f.checksum
    sentCount := 0, idx := 0, bitpos := 0, tick := 0, gapcnt := 0
    phase := .bit, doneR := false }

/-- Not yet a bit-period boundary: `tick <- tick + 1` (R144). -/
def Regs.countTick (r : Regs) : Regs :=
  { r with tick := r.tick + 1, doneR := false }

/-- The next slot of the same character (R144, R145). -/
def Regs.nextSlot (r : Regs) : Regs :=
  { r with tick := 0, bitpos := r.bitpos + 1, doneR := false }

/-- The stop bit of byte `idx` has ended and the delay after it starts (R144, R146). -/
def Regs.enterGap (r : Regs) : Regs :=
  { r with tick := 0, sentCount := r.idx.succ, phase := .gap, gapcnt := 0, doneR := false }

/-- The stop bit of the checksum byte has ended: the transaction completes with OK (R144, R147). -/
def Regs.finish (r : Regs) : Regs :=
  { r with tick := 0, sentCount := 5, status := .ok, phase := .idle, doneR := true }

/-- One more bit period of the delay has passed (R144, R148). -/
def Regs.countGap (r : Regs) : Regs :=
  { r with tick := 0, gapcnt := r.gapcnt + 1, doneR := false }

/-- The delay has run its full length and the next byte's write goes ahead (R144, R149). -/
def Regs.nextByte (r : Regs) : Regs :=
  { r with tick := 0, idx := r.idx + 1, bitpos := 0, phase := .bit, doneR := false }

/-- The write of byte `idx + 1` fails: `raise ERR_TX(sent = idx + 1)` (R144, R150, R184). -/
def Regs.failWrite (r : Regs) : Regs :=
  { r with tick := 0 }.raise .errTx r.idx.succ

/-- The registers after an edge with `rst = 1` (R50, R210). The frame registers hold the free value number `draw`, since
R50 leaves them unspecified (log entry 3). -/
def Regs.afterReset (draw : Nat) : Regs :=
  { Regs.reset with
    fbMode := Config.resetByte draw 0, fbBright := Config.resetByte draw 1
    fbSpeed := Config.resetByte draw 2, acc := Config.resetByte draw 3 }

/-! ### Edges -/

/-- A bit-period boundary: the baud counter has reached `BIT_TICKS - 1` (R144). -/
def Regs.atBoundary (r : Regs) (bitTicks : Nat) : Bool := !decide (r.tick < bitTicks - 1)

/-- The edge of phase BIT (R144 to R147). `chan_ok` is not sampled (R67). -/
def Regs.bitEdge (r : Regs) (bitTicks : Nat) : Regs :=
  if r.atBoundary bitTicks then
    if r.bitpos.val < 9 then r.nextSlot
    else if r.idx.val < 4 then r.enterGap
    else r.finish
  else r.countTick

/-- The edge of phase GAP (R144, R148 to R150). `chan_ok` is sampled at the last boundary of the gap only (R23). -/
def Regs.gapEdge (r : Regs) (bitTicks : Nat) (chanOk : Bool) : Regs :=
  if r.atBoundary bitTicks then
    if r.gapcnt.val < Config.gapBits - 1 then r.countGap
    else if chanOk then r.nextByte
    else r.failWrite
  else r.countTick

/-- An edge with `rst = 0` at which no request is accepted (R142, R144 to R150). -/
def Regs.sequence (r : Regs) (bitTicks : Nat) (chanOk : Bool) : Regs :=
  match r.phase with
  | .idle => r.quiet
  | .bit => r.bitEdge bitTicks
  | .gap => r.gapEdge bitTicks chanOk

/-- The accepting edge of a request for mode `m` with level codes `b` and `s` (R110): ERR_CONFIG where a level code is
invalid, before ERR_PORT where the channel is down (R186), else the transaction starts. -/
def Regs.accept (r : Regs) (m : Mode) (b s : Code) (chanOk : Bool) : Regs :=
  match frameOf m b s with
  | none => r.raise .errConfig 0
  | some f => if chanOk then r.start f else r.raise .errPort 0

/-- An edge at which no request is accepted: reset before everything else (R211), else the sequencer's edge. -/
def Regs.plainEdge (r : Regs) (bitTicks draw : Nat) (p : Pins) : Regs :=
  if p.rst then Regs.afterReset draw else r.sequence bitTicks p.chanOk

/-! ### The same edges on the whole state -/

/-- Replace the registers. -/
def State.withCore (s : State) (c : Regs) : State :=
  { s with core := c }

/-- An edge at which no request is accepted. -/
def State.plainEdge (s : State) : State :=
  s.withCore (s.core.plainEdge s.bitTicks s.resetDraw s.pins)

/-- The edge with a SEND request for mode `m` presented: the accepting edge where `req_ready = 1` (R21, R110), and where
it is 0 the edge the block makes anyway, since the request is then "not accepted and not stored" (R21, R185). -/
def State.sendEdge (s : State) (m : Mode) (b sp : Code) : State :=
  if s.core.reqReady s.pins.rst then s.withCore (s.core.accept m b sp s.pins.chanOk) else s.plainEdge

/-- The accepting edge of a request word whose mode code is no mode: `raise ERR_CONFIG(sent = 0)` (R110, R182). -/
def State.rejectEdge (s : State) : State :=
  s.withCore (s.core.raise .errConfig 0)

/-! ### The host's side of an edge -/

/-- The request word sampled at the next edge: there is one exactly when that edge is an accepting edge (R21). -/
def State.fetch (s : State) : Option ReqWord :=
  if s.core.reqReady s.pins.rst && s.pins.reqValid then some s.pins.reqWord else none

/-- The input levels of the cycle after this one: the head of what the host will drive, or the same levels again. -/
def State.nextPins (s : State) : Pins :=
  match s.stimulus with
  | [] => s.pins
  | p :: _ => p

/-- The end of the cycle: the input levels become those of the next cycle. An edge with `rst = 0` moves to the next draw
of the free value, so that consecutive reset edges leave one state (R212). -/
def State.advance (s : State) : State :=
  { s with
    pins := s.nextPins
    stimulus := s.stimulus.tail
    resetDraw := if s.pins.rst then s.resetDraw else s.resetDraw + 1 }

/-- The end of the cycle after an outcome of `exec`. -/
def advanceOutcome (o : Host.Outcome State Fault Refusal) : Host.Outcome State Fault Refusal :=
  match o with
  | .next s => .next s.advance
  | .fault f => .fault f
  | .refused f => .refused f

/-- The input levels at cycle `n` from now, where `p` are those of the current cycle and `ps` those to come. -/
def pinsFrom (p : Pins) (ps : List Pins) (n : Nat) : Pins :=
  match ps, n with
  | _, 0 => p
  | [], _ + 1 => p
  | q :: qs, k + 1 => pinsFrom q qs k

/-- The input levels that the edge `n` edges after the next one samples. -/
def State.pinsAt (s : State) (n : Nat) : Pins := pinsFrom s.pins s.stimulus n

/-- A host that presents the request word `w` in the current cycle with `rst = 0`. A state in the middle of a transaction
takes no request, so its registers are first put to their reset values; a state in IDLE keeps all of them. -/
def State.presentWord (s : State) (w : ReqWord) : State :=
  { s with
    core := if s.core.phase = .idle then s.core else Regs.reset
    pins := { s.pins with rst := false, reqValid := true, reqWord := w } }

end Sys2Proof.Machine
end

