-- ==== Sys2Proof/Machine/Send.lean ====
section
/-! DEFINITION. The five SEND instructions (R120 to R124). Each is the accepting edge of R110 with its mode code fixed; what
follows on the line is the sequencer's (R141 to R152), one clock edge a step. -/

namespace Sys2Proof.Machine

/-- `SEND.OFF b, s` (R120). -/
def execSendOff (b sp : Code) (s : State) : Host.Outcome State Fault Refusal :=
  .next (s.sendEdge .off b sp)

/-- `SEND.AUTO b, s` (R121). -/
def execSendAuto (b sp : Code) (s : State) : Host.Outcome State Fault Refusal :=
  .next (s.sendEdge .auto b sp)

/-- `SEND.RAINBOW b, s` (R122). -/
def execSendRainbow (b sp : Code) (s : State) : Host.Outcome State Fault Refusal :=
  .next (s.sendEdge .rainbow b sp)

/-- `SEND.BREATHING b, s` (R123). -/
def execSendBreathing (b sp : Code) (s : State) : Host.Outcome State Fault Refusal :=
  .next (s.sendEdge .breathing b sp)

/-- `SEND.CYCLE b, s` (R124). -/
def execSendCycle (b sp : Code) (s : State) : Host.Outcome State Fault Refusal :=
  .next (s.sendEdge .cycle b sp)

end Sys2Proof.Machine
end

