-- ==== Sys2Proof/Machine/Dispatch.lean ====
section
/-! DEFINITION. The dispatch of an instruction to its meaning, one arm a constructor. -/

namespace Sys2Proof.Machine

def exec (i : Instr) (s : State) : Host.Outcome State Fault Refusal :=
  match i with
  | .sendOff b sp => Sys2Proof.Machine.execSendOff b sp s
  | .sendAuto b sp => Sys2Proof.Machine.execSendAuto b sp s
  | .sendRainbow b sp => Sys2Proof.Machine.execSendRainbow b sp s
  | .sendBreathing b sp => Sys2Proof.Machine.execSendBreathing b sp s
  | .sendCycle b sp => Sys2Proof.Machine.execSendCycle b sp s

end Sys2Proof.Machine
end

