-- ==== Sys2Proof/Machine/Step.lean ====
section
/-! DEFINITION. One step: one rising edge of `clk` (D1, R152), which samples the input levels of the current cycle, and then
the input levels of the next cycle. -/

namespace Sys2Proof.Machine

/-- One edge of a legal state: the accepting edge of the request presented, where there is one, else the sequencer's. -/
def stepLegal (s : State) : Host.Outcome State Fault Refusal :=
  match s.fetch with
  | none => .next s.plainEdge.advance
  | some w =>
    match decode w with
    | .ok i => advanceOutcome (exec i s)
    | .error _ => .next s.rejectEdge.advance

/-- One clock edge. A value of the state type outside the set of R40 has no step (log entry 6 for the one exception). -/
def step (s : State) : Host.Outcome State Fault Refusal :=
  if s.core.legal s.bitTicks then stepLegal s else .refused .notAState

/-- `s` with the request word of the low `nbits` bits of `w` presented, so that the next edge accepts it. -/
def State.withFetchWord (s : State) (nbits w : Nat) : State :=
  s.presentWord (BitVec.ofNat 9 (w % 2 ^ nbits))

end Sys2Proof.Machine
end

