-- ==== Sys2Proof/Machine/Assembled.lean ====
section
/-! DEFINITION. The next-state function of R152 as one text, `step(S, I)`, beside the step that fetches, decodes and
dispatches (Machine/Step.lean). It is written over the validity predicate, the checksum sum and the formula `6 - L` of
R102, where the instructions use the tables and the accumulator. -/

namespace Sys2Proof.Machine

/-- The device byte of a level by the formula `6 - L` (R102), read at a valid level only. -/
def levelByFormula (l : Code) : Byte := u8 (6 - l.toNat)

/-- The device byte of a mode code; `MODE_TABLE` has no entry at codes 5 to 7, where nothing reads this (R104). -/
def modeByCode (c : Code) : Byte := (modeTable c).getD 0

/-- The third branch of IDLE in R152. -/
def assembledStart (S : Regs) (w : ReqWord) : Regs :=
  let M := modeByCode (modeField w)
  let BB := levelByFormula (brightField w)
  let SB := levelByFormula (speedField w)
  { S with
    fbMode := M, fbBright := BB, fbSpeed := SB, acc := checksum M BB SB
    sentCount := 0, idx := 0, bitpos := 0, tick := 0, gapcnt := 0, phase := .bit }

/-- The case IDLE of R152; `S` is the copy whose `done_r` is 0. -/
def assembledIdle (S : Regs) (I : Pins) : Regs :=
  if I.reqValid then
    if !validWord I.reqWord then { S with status := .errConfig, sentCount := 0, doneR := true }
    else if !I.chanOk then { S with status := .errPort, sentCount := 0, doneR := true }
    else assembledStart S I.reqWord
  else S

/-- The case BIT of R152. -/
def assembledBit (bitTicks : Nat) (S : Regs) : Regs :=
  if S.tick < bitTicks - 1 then { S with tick := S.tick + 1 }
  else if S.bitpos.val < 9 then { S with tick := 0, bitpos := S.bitpos + 1 }
  else if S.idx.val < 4 then { S with tick := 0, sentCount := S.idx.succ, phase := .gap, gapcnt := 0 }
  else { S with tick := 0, sentCount := 5, status := .ok, phase := .idle, doneR := true }

/-- The case GAP of R152. -/
def assembledGap (bitTicks : Nat) (S : Regs) (I : Pins) : Regs :=
  if S.tick < bitTicks - 1 then { S with tick := S.tick + 1 }
  else if S.gapcnt.val < Config.gapBits - 1 then { S with tick := 0, gapcnt := S.gapcnt + 1 }
  else if I.chanOk then { S with tick := 0, idx := S.idx + 1, bitpos := 0, phase := .bit }
  else { S with tick := 0, status := .errTx, phase := .idle, doneR := true }

/-- `step(S, I)` of R152. `draw` is the free value's number in `RESET_STATE`. -/
def assembledStep (bitTicks draw : Nat) (S : Regs) (I : Pins) : Regs :=
  if I.rst then Regs.afterReset draw
  else
    let S' := { S with doneR := false }
    match S.phase with
    | .idle => assembledIdle S' I
    | .bit => assembledBit bitTicks S'
    | .gap => assembledGap bitTicks S' I

end Sys2Proof.Machine
end

