-- ==== Sys2Proof/Machine/Assembler.lean ====
section
/-! DEFINITION. The assembler syntax of requests (R90) and its pseudo-instructions (R91): the text of a line, the line, and
the request word it assembles to. -/

namespace Sys2Proof.Machine

/-- A line `SEND.<MODE> <b>, <s>` in which a level may be omitted (R90, R91). -/
structure AsmLine where
  mode : Mode
  bright : Option Nat
  speed : Option Nat
  deriving DecidableEq, Repr

/-- The level a pseudo-instruction supplies (R91: "Each defaults an omitted level to 3"). -/
def defaultLevel : Nat := 3

/-- A level operand as a level code; an assembler refuses a level outside 1 to 5 (R90). -/
def assembleLevel (l : Option Nat) : Option Code :=
  let n := l.getD defaultLevel
  if 1 ≤ n ∧ n ≤ 5 then some (BitVec.ofNat 3 n) else none

/-- The instruction a line stands for. -/
def assembleInstr (a : AsmLine) : Option Instr :=
  match assembleLevel a.bright, assembleLevel a.speed with
  | some b, some s => some (instrOf a.mode b s)
  | _, _ => none

/-- The request word a line assembles to (R90). -/
def assemble (a : AsmLine) : Option ReqWord := (assembleInstr a).map encode

/-- A mode's spelling in upper case (R82, "mnemonic suffix"). -/
def modeName : Mode → List Char
  | .off => ['O', 'F', 'F']
  | .auto => ['A', 'U', 'T', 'O']
  | .rainbow => ['R', 'A', 'I', 'N', 'B', 'O', 'W']
  | .breathing => ['B', 'R', 'E', 'A', 'T', 'H', 'I', 'N', 'G']
  | .cycle => ['C', 'Y', 'C', 'L', 'E']

/-- A mode's spelling in lower case (R90: "Upper or lower case are accepted"). -/
def modeNameLower : Mode → List Char
  | .off => ['o', 'f', 'f']
  | .auto => ['a', 'u', 't', 'o']
  | .rainbow => ['r', 'a', 'i', 'n', 'b', 'o', 'w']
  | .breathing => ['b', 'r', 'e', 'a', 't', 'h', 'i', 'n', 'g']
  | .cycle => ['c', 'y', 'c', 'l', 'e']

/-- The mode of a name; an assembler refuses an unknown name (R90). -/
def modeOfName (cs : List Char) : Option Mode :=
  [Mode.off, .auto, .rainbow, .breathing, .cycle].find? fun m => cs == modeName m || cs == modeNameLower m

/-- The digit's value, for a decimal digit. -/
def digitOf (c : Char) : Option Nat :=
  if 48 ≤ c.toNat ∧ c.toNat ≤ 57 then some (c.toNat - 48) else none

/-- The decimal integer that the whole text is; the empty text is none. -/
def decimalFrom (acc : Nat) (cs : List Char) : Option Nat :=
  match cs with
  | [] => some acc
  | c :: rest =>
    match digitOf c with
    | some d => decimalFrom (10 * acc + d) rest
    | none => none

/-- The text without spaces before it and after it. -/
def trimSpaces (cs : List Char) : List Char :=
  ((cs.dropWhile (· == ' ')).reverse.dropWhile (· == ' ')).reverse

/-- An operand: omitted, or a decimal integer. The outer `none` refuses the text. -/
def parseLevel (cs : List Char) : Option (Option Nat) :=
  match trimSpaces cs with
  | [] => some none
  | c :: rest => (decimalFrom 0 (c :: rest)).map some

/-- The operands: nothing, `<b>`, `<b>, <s>` or `, <s>` (R90, R91). A comma with no level after it is refused. -/
def parseOperands (cs : List Char) : Option (Option Nat × Option Nat) :=
  let left := cs.takeWhile (· != ',')
  match cs.dropWhile (· != ',') with
  | [] => (parseLevel left).map fun b => (b, none)
  | _ :: right =>
    match parseLevel left, parseLevel right with
    | some b, some (some s) => some (b, some s)
    | _, _ => none

/-- The text of a line after its `SEND.`: the mode's name, then the operands. -/
def parseAfterDot (cs : List Char) : Option AsmLine :=
  let name := cs.takeWhile (fun c => c != ' ' && c != ',')
  match modeOfName name, parseOperands (cs.dropWhile (fun c => c != ' ' && c != ',')) with
  | some m, some (b, s) => some ⟨m, b, s⟩
  | _, _ => none

/-- The line that a text is (R90, R91). -/
def parseLine (cs : List Char) : Option AsmLine :=
  match trimSpaces cs with
  | 'S' :: 'E' :: 'N' :: 'D' :: '.' :: rest => parseAfterDot rest
  | _ => none

/-- The request word of a text. -/
def assembleText (cs : List Char) : Option ReqWord := (parseLine cs).bind assemble

end Sys2Proof.Machine
end

