-- ==== Sys2Proof/Machine/HostProgram.lean ====
section
/-! DEFINITION. The host that carries out a list of the directives of R92 on the block's input ports, one cycle at a time,
and a run from power-up (R213). -/

namespace Sys2Proof.Machine

/-- A host directive (R92). A line `SEND...` is `req` with the word the assembler gives it. -/
inductive Directive where
  /-- `RESET <n>`: `rst = 1` for `n` cycles. -/
  | reset (n : Nat)
  /-- `CHAN <0 or 1>`: `chan_ok` to the value, held until the next one; takes no cycle. -/
  | chan (ok : Bool)
  /-- `REQ <word>` and `SEND...`: `req_valid = 1` with the word until the accepting edge. -/
  | req (w : ReqWord)
  /-- `WAIT <n>`: inputs unchanged for `n` cycles. -/
  | wait (n : Nat)
  /-- `WAITDONE`: at once if `done = 1`, else until the first edge after which `done = 1`. -/
  | waitDone
  deriving DecidableEq, Repr

/-- The directive a line of assembler text stands for. -/
def directiveOfText (cs : List Char) : Option Directive := (assembleText cs).map .req

/-- The input levels of a cycle in which the host presents nothing: `rst` and `req_valid` at 0, the rest as before. -/
def Pins.unpresented (p : Pins) : Pins := { p with rst := false, reqValid := false }

/-- The input levels the host drives in a cycle whose registers are `r`, where it drove `p` in the cycle before, and the
directives from the one it carries out in this cycle on. Directives that take no cycle are carried out on the way; after the
last directive nothing is presented. -/
def hostCycle (ds : List Directive) (r : Regs) (p : Pins) : Pins × List Directive :=
  match ds with
  | [] => (p.unpresented, [])
  | .reset 0 :: rest => hostCycle rest r p
  | .reset (n + 1) :: rest => ({ p with rst := true, reqValid := false }, .reset (n + 1) :: rest)
  | .chan ok :: rest => hostCycle rest r { p with chanOk := ok }
  | .req w :: rest => ({ p with rst := false, reqValid := true, reqWord := w }, .req w :: rest)
  | .wait 0 :: rest => hostCycle rest r p
  | .wait (n + 1) :: rest => (p.unpresented, .wait (n + 1) :: rest)
  | .waitDone :: rest => if r.doneR then hostCycle rest r p else (p.unpresented, .waitDone :: rest)

/-- The directives left after the edge of a cycle with registers `r` in which the host carries out the first of `ds`: a request
ends at its accepting edge, and a wait for `done` ends in the cycle that shows it. -/
def directivesAfterEdge (ds : List Directive) (r : Regs) : List Directive :=
  match ds with
  | [] => []
  | .reset n :: rest => .reset (n - 1) :: rest
  | .chan ok :: rest => .chan ok :: rest
  | .req w :: rest => if r.reqReady false then rest else .req w :: rest
  | .wait n :: rest => .wait (n - 1) :: rest
  | .waitDone :: rest => .waitDone :: rest

/-- A request is still to be accepted. -/
def requestLeft (ds : List Directive) : Bool :=
  match ds with
  | [] => false
  | .reset _ :: rest => requestLeft rest
  | .chan _ :: rest => requestLeft rest
  | .req _ :: _ => true
  | .wait _ :: rest => requestLeft rest
  | .waitDone :: rest => requestLeft rest

/-- The run of a program has ended: no transaction is open, and every directive is carried out or, for a run `toLast`, the
last request is accepted (R155). -/
def runEnded (toLast : Bool) (ds : List Directive) (r : Regs) : Bool :=
  !r.busy && (ds.isEmpty || (toLast && !requestLeft ds))

/-- The state with the input levels `p`, and nothing more to come than these. -/
def State.driven (s : State) (p : Pins) : State := { s with pins := p, stimulus := [] }

/-- At most `n` cycles of a program, up to the end of its run. The state it ends in has the levels that the host drives in
that cycle. -/
def runHost (toLast : Bool) (n : Nat) (ds : List Directive) (s : State) : Host.Outcome State Fault Refusal :=
  let c := hostCycle ds s.core s.pins
  match n with
  | 0 => .next (s.driven c.1)
  | k + 1 =>
    if runEnded toLast c.2 s.core then .next (s.driven c.1)
    else match step (s.driven c.1) with
      | .next t => runHost toLast k (directivesAfterEdge c.2 s.core) t
      | .fault f => .fault f
      | .refused f => .refused f

/-- At most `n` cycles of a program: every directive is carried out (R92), and then the open transaction completes. -/
def runProgram (n : Nat) (ds : List Directive) (s : State) : Host.Outcome State Fault Refusal := runHost false n ds s

/-- At most `n` cycles of a program, up to the completing edge of its last request, where R155 puts the end of its run. The
run of a program without a request ends with its directives. -/
def runToLastCompletion (n : Nat) (ds : List Directive) (s : State) : Host.Outcome State Fault Refusal :=
  runHost (requestLeft ds) n ds s

/-- The first directive that takes a cycle is a reset (R213). -/
def startsWithReset (ds : List Directive) : Bool :=
  match ds with
  | [] => false
  | .reset 0 :: rest => startsWithReset rest
  | .reset (_ + 1) :: _ => true
  | .chan _ :: rest => startsWithReset rest
  | .req _ :: _ => false
  | .wait 0 :: rest => startsWithReset rest
  | .wait (_ + 1) :: _ => false
  | .waitDone :: _ => false

/-- A run from power-up with `chan_ok = 1` before edge 1. The registers are unspecified before the first reset edge, which
gives them the same values whatever they were (R210); a program that does not begin with one is refused (R213; log
entry 12). -/
def runFromPowerUp (bitTicks n : Nat) (ds : List Directive) : Host.Outcome State Fault Refusal :=
  if startsWithReset ds then runProgram n ds (State.resetAt bitTicks) else .refused .noReset

end Sys2Proof.Machine
end

