-- ==== Sys2Proof/Machine/Observe.lean ====
section
/-! DEFINITION. What can be seen of a run: the outputs cycle by cycle, the line trace (R154), and the outcome with which the
next edge ends a transaction (R155, R180). -/

namespace Sys2Proof.Machine

/-- The next edge is an accepting edge (R21). -/
def State.accepting (s : State) : Bool := s.core.reqReady s.pins.rst && s.pins.reqValid

/-- The outcome with which the next edge completes a transaction, or `none` where it completes none (R180, "raised by" and
"when"). Reset completes a transaction without an outcome (R155) and gives `none`. -/
def State.outcomeAtEdge (s : State) : Option Status :=
  if s.pins.rst then none
  else match s.core.phase with
    | .idle =>
      if s.pins.reqValid then
        if !validWord s.pins.reqWord then some .errConfig
        else if !s.pins.chanOk then some .errPort
        else none
      else none
    | .bit =>
      if s.core.tick = s.bitTicks - 1 ∧ s.core.bitpos = 9 ∧ s.core.idx = 4 then some .ok else none
    | .gap =>
      if s.core.tick = s.bitTicks - 1 ∧ s.core.gapcnt.val = Config.gapBits - 1 ∧ s.pins.chanOk = false
      then some .errTx else none

/-- The outputs of `n` cycles, the current one first (R154). -/
def outputTrace (n : Nat) (s : State) : List Outputs :=
  match n with
  | 0 => []
  | k + 1 =>
    s.outputs :: match step s with
      | .next t => outputTrace k t
      | .fault _ => []
      | .refused _ => []

/-- The frame byte whose start bit begins in this cycle. -/
def Regs.byteStart (r : Regs) : Option Byte :=
  if r.phase = .bit ∧ r.bitpos = 0 ∧ r.tick = 0 then some (r.selByte r.idx) else none

/-- The line trace of `n` cycles (R154): each byte whose start bit went on the line with its start cycle, where the current
cycle has the number `c`. -/
def lineTrace (n c : Nat) (s : State) : List (Byte × Nat) :=
  match n with
  | 0 => []
  | k + 1 =>
    (match s.core.byteStart with
      | some v => [(v, c)]
      | none => []) ++
    match step s with
      | .next t => lineTrace k (c + 1) t
      | .fault _ => []
      | .refused _ => []

end Sys2Proof.Machine
end

