-- ==== Sys2Proof/Safety.lean ====
section
/-! DEFINITION. What counts as a safe state, in the terms the statements use. -/

namespace Sys2Proof.Safety

open Sys2Proof.Machine

/-- The registers hold a value of R40's set, or of its one exception (`Regs.legal`, log entry 6), so that the state has a
step. -/
def Legal (s : State) : Prop := s.core.legal s.bitTicks = true

/-- The frame registers hold the frame of a valid request word (R62, R85, R108). -/
def HoldsFrame (r : Regs) : Prop := ∃ w, validWord w = true ∧ encodeRequest w = some (frameBytes r.frame)

/-- While a transaction is open, the frame registers hold a frame. -/
def FrameSound (s : State) : Prop := s.core.phase ≠ .idle → HoldsFrame s.core

/-- The report of the last outcome agrees with its byte count whenever no transaction is open (R180). -/
def ReportSound (r : Regs) : Prop :=
  r.phase = .idle →
    match r.status with
    | .none => r.sentCount = 0
    | .ok => r.sentCount = 5
    | .errConfig => r.sentCount = 0
    | .errPort => r.sentCount = 0
    | .errTx => 1 ≤ r.sentCount.val ∧ r.sentCount.val ≤ 4

/-- The registers after the third branch of R110, for a frame `f`: the frame registers written, the counters cleared, the
start bit of byte 0 on the line, `status` kept. -/
def started (r : Regs) (f : Frame) : Regs :=
  { phase := .bit, idx := 0, bitpos := 0, tick := 0, gapcnt := 0
    fbMode := f.mode, fbBright := f.bright, fbSpeed := f.speed, acc := f.checksum
    status := r.status, sentCount := 0, doneR := false }

/-- The registers after `raise e(sent = n)` (R181): four registers written, the others kept. -/
def ended (r : Regs) (e : Status) (n : Fin 6) : Regs :=
  { phase := .idle, idx := r.idx, bitpos := r.bitpos, tick := r.tick, gapcnt := r.gapcnt
    fbMode := r.fbMode, fbBright := r.fbBright, fbSpeed := r.fbSpeed, acc := r.acc
    status := e, sentCount := n, doneR := true }

/-- Bytes 1 to 4 of the frame `[0xFA, M, 6 - b, 6 - s, u8(M + 6 - b - s)]` of R120 to R124, computed on integers. -/
def sentFrame (M : Nat) (b s : Code) : Frame :=
  ⟨u8 M, u8 (6 - b.toNat), u8 (6 - s.toNat), BitVec.ofInt 8 ((M : Int) + 6 - b.toNat - s.toNat)⟩

/-- The unreduced sum of a frame's first four bytes. -/
def unreducedSum (f : Frame) : Nat := frameSum f.mode f.bright f.speed

/-- The 25 pairs of a brightness level and a speed level. -/
def levelPairs : List (Code × Code) :=
  ([1, 2, 3, 4, 5] : List Code).flatMap fun b => ([1, 2, 3, 4, 5] : List Code).map fun s => (b, s)

/-- The next edge is one of the edges that sample `chan_ok` (R23): it accepts a valid request, or it ends a gap. -/
def SamplesChanOk (s : State) : Prop :=
  s.pins.rst = false ∧
    ((s.core.phase = .idle ∧ s.pins.reqValid = true ∧ validWord s.pins.reqWord = true) ∨
      (s.core.phase = .gap ∧ s.core.tick = s.bitTicks - 1 ∧ s.core.gapcnt.val = 49))

/-- The state with another level on `chan_ok`. -/
def withChanOk (s : State) (v : Bool) : State := { s with pins := { s.pins with chanOk := v } }

/-- The state with another request presented, or none. -/
def withRequest (s : State) (v : Bool) (w : ReqWord) : State :=
  { s with pins := { s.pins with reqValid := v, reqWord := w } }

/-- `k` steps from `s` end in `t`, no step stopping on the way. -/
def Reaches (k : Nat) (s t : State) : Prop := Host.Core.run Sys2Proof.core k s = .next t

/-- No reset edge among the next `n` edges. -/
def NoReset (s : State) (n : Nat) : Prop := ∀ e, e < n → (s.pinsAt e).rst = false

/-- A valid request stands at the port of an idle legal state with the channel up, no reset comes in its whole
transaction of `250 * BIT_TICKS` edges, and `f` is its frame. -/
structure Opens (s : State) (f : Frame) : Prop where
  legal : Legal s
  idle : s.core.phase = .idle
  request : s.pins.reqValid = true
  frame : encodeRequest s.pins.reqWord = some (frameBytes f)
  channel : s.pins.chanOk = true
  noReset : NoReset s (250 * s.bitTicks + 1)

/-- `chan_ok = 1` at the write checks before bytes 1 to `k` of the transaction that the next edge opens: the edges
`60 * (i + 1) * BIT_TICKS` after it (R153). -/
def ChecksPass (s : State) (k : Nat) : Prop := ∀ i, i < k → (s.pinsAt (60 * (i + 1) * s.bitTicks)).chanOk = true

/-- The state stands in the cycle in which the start bit of frame byte `k` begins. -/
def AtByteStart (r : Regs) (k : Fin 5) : Prop := r.phase = .bit ∧ r.idx = k ∧ r.bitpos = 0 ∧ r.tick = 0

/-- The state stands in the first cycle of the gap after frame byte `k`. -/
def AtGapStart (r : Regs) (k : Fin 5) : Prop := r.phase = .gap ∧ r.idx = k ∧ r.gapcnt = 0 ∧ r.tick = 0

/-- Two register sets agree in every register but the four frame registers. -/
def AgreeButFrame (a b : Regs) : Prop :=
  { a with fbMode := b.fbMode, fbBright := b.fbBright, fbSpeed := b.fbSpeed, acc := b.acc } = b

end Sys2Proof.Safety
end

