-- ==== Sys2Proof/Certificates/Slice0/Obligations.lean ====
section
/-! DEFINITION. The statements for the provers. In every statement one step is one clock edge, `s.advance` puts the input
levels of the next cycle on the ports, and `s.pinsAt e` are the levels that the edge `e` edges after the next one samples. -/

open Sys2Proof Sys2Proof.Machine Sys2Proof.Safety

/-! ## Encoding -/

/-- Words written out from R81 and R88 decode to the instruction they stand for; three words decode to none. -/
def Obligations.KnownWordsDecode : Prop :=
  decode 0b011011000 = .ok (.sendOff 3 3) ∧ decode 0b001001001 = .ok (.sendAuto 1 1) ∧
  decode 0b001101010 = .ok (.sendRainbow 5 1) ∧ decode 0b100010011 = .ok (.sendBreathing 2 4) ∧
  decode 0b101101100 = .ok (.sendCycle 5 5) ∧ decode 0b011011101 = .error (.invalidMode 5) ∧
  decode 0b011011110 = .error (.invalidMode 6) ∧ decode 0b011011111 = .error (.invalidMode 7)

/-- Decode and encode agree on every instruction, well formed or not, and on every word; a word is an instruction's or its
mode code is none; and a word is valid exactly when it encodes a well-formed instruction (R81, R84, R88). -/
def Obligations.DecodeAndEncodeAgree : Prop :=
  (∀ i : Instr, decode (encode i) = .ok i) ∧
  (∀ (w : ReqWord) (i : Instr), decode w = .ok i → encode i = w) ∧
  (∀ w : ReqWord, (∃ i, decode w = .ok i) ↔ (modeField w).toNat ≤ 4) ∧
  (∀ w : ReqWord, (modeField w).toNat ≤ 4 ∨ decode w = .error (.invalidMode (modeField w))) ∧
  (∀ w : ReqWord, validWord w = true ↔ ∃ i, i.wellFormed = true ∧ encode i = w)

/-- The assembler's word of a line is the encoding of its instruction with an omitted level taken as 3, and there is one
exactly when both levels are 1 to 5 (R90, R91). -/
def Obligations.AssemblerEncodesItsLine : Prop :=
  (∀ (m : Mode) (b s : Option Nat) (w : ReqWord),
    assemble ⟨m, b, s⟩ = some w ↔
      (1 ≤ b.getD 3 ∧ b.getD 3 ≤ 5) ∧ (1 ≤ s.getD 3 ∧ s.getD 3 ≤ 5) ∧
      decode w = .ok (instrOf m (BitVec.ofNat 3 (b.getD 3)) (BitVec.ofNat 3 (s.getD 3)))) ∧
  assemble ⟨.rainbow, some 5, some 1⟩ = some 0x06A ∧ assemble ⟨.off, none, none⟩ = some 0x0D8

/-! ## Tables and the checksum -/

/-- `MODE_TABLE` (R100). -/
def Obligations.ModeTableEntries : Prop :=
  modeTable 0 = some 0x04 ∧ modeTable 1 = some 0x05 ∧ modeTable 2 = some 0x01 ∧ modeTable 3 = some 0x02 ∧
  modeTable 4 = some 0x03 ∧ modeTable 5 = none ∧ modeTable 6 = none ∧ modeTable 7 = none

/-- `LEVEL_TABLE[L] = 6 - L` for every defined entry, a bijection of 1 to 5 onto 1 to 5 that is its own inverse; the formula
and the table agree (R102). -/
def Obligations.LevelTableIsSixMinusLevel : Prop :=
  (∀ c : Code, levelTable c ≠ none ↔ 1 ≤ c.toNat ∧ c.toNat ≤ 5) ∧
  (∀ (c : Code) (v : Byte), levelTable c = some v →
    v.toNat = 6 - c.toNat ∧ 1 ≤ v.toNat ∧ v.toNat ≤ 5 ∧ v = levelByFormula c ∧
    levelTable (v.setWidth 3) = some (c.setWidth 8)) ∧
  (∀ c d : Code, levelTable c ≠ none → levelTable c = levelTable d → c = d) ∧
  (∀ v : Byte, 1 ≤ v.toNat → v.toNat ≤ 5 → ∃ c, levelTable c = some v)

/-- The validity predicate on numbers, 125 words of 512 being valid; the encoder has a frame exactly for the valid words
(R84, R104). -/
def Obligations.ValidWordsAreThoseWithAFrame : Prop :=
  (∀ w : ReqWord, validWord w = true ↔
    w.toNat % 8 ≤ 4 ∧ (1 ≤ w.toNat / 8 % 8 ∧ w.toNat / 8 % 8 ≤ 5) ∧ (1 ≤ w.toNat / 64 ∧ w.toNat / 64 ≤ 5)) ∧
  (∀ w : ReqWord, (encodeRequest w).isSome = validWord w) ∧
  ((List.range 512).filter fun n => validWord (BitVec.ofNat 9 n)).length = 125

/-- The checksum is the sum of the first four bytes modulo 256, and what the accumulator is written with is that checksum
(R105). -/
def Obligations.ChecksumIsTheSumModulo256 : Prop :=
  ∀ mb bb sb : Byte,
    (checksum mb bb sb).toNat = (0xFA + mb.toNat + bb.toNat + sb.toNat) % 256 ∧
    accumulate mb bb sb = checksum mb bb sb

/-- The closed form of a valid frame's checksum, the range of the unreduced sum, and when it wraps (R106), with the table
of the checksums reached and of the wrapping pairs for each mode. -/
def Obligations.ChecksumClosedFormAndRange : Prop :=
  (∀ (m : Mode) (b s : Code) (f : Frame), frameOf m b s = some f →
    f.checksum = u8 (0xFA + (modeByte m).toNat + (6 - b.toNat) + (6 - s.toNat)) ∧
    f.checksum = BitVec.ofInt 8 (((modeByte m).toNat : Int) + 6 - b.toNat - s.toNat) ∧
    unreducedSum f = 0xFA + (modeByte m).toNat + (6 - b.toNat) + (6 - s.toNat) ∧
    0xFD ≤ unreducedSum f ∧ unreducedSum f ≤ 0x109 ∧
    (f.checksum.toNat ≤ 9 ∨ 0xFD ≤ f.checksum.toNat) ∧
    (256 ≤ unreducedSum f ↔ b.toNat + s.toNat ≤ (modeByte m).toNat + 6) ∧
    (256 ≤ unreducedSum f ↔ f.checksum.toNat ≤ 9)) ∧
  (∀ (m : Mode) (v : Byte), (∃ b s f, frameOf m b s = some f ∧ f.checksum = v) ↔
    (match m with
      | .off => v.toNat ≤ 8
      | .auto => 1 ≤ v.toNat ∧ v.toNat ≤ 9
      | .rainbow => 0xFD ≤ v.toNat ∨ v.toNat ≤ 5
      | .breathing => 0xFE ≤ v.toNat ∨ v.toNat ≤ 6
      | .cycle => 0xFF ≤ v.toNat ∨ v.toNat ≤ 7)) ∧
  (∀ m : Mode, (levelPairs.filter fun p => decide (256 ≤ unreducedSum (sentFrame (modeByte m).toNat p.1 p.2))).length =
    (match m with
      | .off => 25
      | .auto => 25
      | .rainbow => 19
      | .breathing => 22
      | .cycle => 24))

/-- A valid request's frame has five bytes; BEGIN is byte 0 and stands at no other offset (R109). -/
def Obligations.BeginStandsOnlyAtOffsetZero : Prop :=
  ∀ (w : ReqWord) (l : List Byte), encodeRequest w = some l →
    l.length = 5 ∧ l.head? = some 0xFA ∧
    (∀ v ∈ (l.drop 1).take 3, 1 ≤ v.toNat ∧ v.toNat ≤ 5) ∧
    (∀ v ∈ l.drop 4, v.toNat ≤ 9 ∨ 0xFD ≤ v.toNat) ∧
    (∀ v ∈ l.tail, v ≠ 0xFA)

/-! ## The line and the outputs -/

/-- The slots of a character, with the two characters that R87 writes out; the line is at mark whenever no character is
being sent (R87). -/
def Obligations.CharacterSlots : Prop :=
  (∀ v : Byte, charSlot v 0 = false ∧ charSlot v 9 = true ∧
    ∀ j : Fin 10, 1 ≤ j.val → j.val ≤ 8 → charSlot v j = v.getLsbD (j.val - 1)) ∧
  (List.finRange 10).map (charSlot 0xFA) = [false, false, true, false, true, true, true, true, true, true] ∧
  (List.finRange 10).map (charSlot 0x01) = [false, true, false, false, false, false, false, false, false, true] ∧
  ∀ r : Regs, r.phase ≠ .bit → r.txd = true

/-- `txd` and the frame buffer it reads (R61, R141). -/
def Obligations.LineShowsTheSelectedByte : Prop :=
  ∀ r : Regs,
    (r.phase = .bit → r.txd = charSlot (r.selByte r.idx) r.bitpos) ∧
    (r.phase = .idle → r.txd = true) ∧ (r.phase = .gap → r.txd = true) ∧
    r.selByte 0 = 0xFA ∧ r.selByte 1 = r.fbMode ∧ r.selByte 2 = r.fbBright ∧ r.selByte 3 = r.fbSpeed ∧
    r.selByte 4 = r.acc

/-- The output ports (R46, R47, R48), `req_ready` being the only one that depends on an input. -/
def Obligations.OutputPorts : Prop :=
  (∀ s : State,
    (s.outputs.busy = true ↔ s.core.phase ≠ .idle) ∧
    (s.outputs.reqReady = true ↔ s.core.phase = .idle ∧ s.pins.rst = false) ∧
    s.outputs.done = s.core.doneR ∧ s.outputs.status = s.core.status.code ∧
    s.outputs.sentCount.toNat = s.core.sentCount.val ∧ s.outputs.txd = s.core.txd) ∧
  (∀ s t : State, s.core = t.core → { s.outputs with reqReady := t.outputs.reqReady } = t.outputs) ∧
  Status.none.code = 0 ∧ Status.ok.code = 1 ∧ Status.errConfig.code = 2 ∧ Status.errPort.code = 3 ∧ Status.errTx.code = 4

/-! ## Reset -/

/-- The state after reset: the values of R50, legal at every positive `BIT_TICKS`, the report sound. The frame registers
and the input levels are the model's choice (log entries 4 and 5) and are not stated. -/
def Obligations.ResetStateIsLegal : Prop :=
  AgreeButFrame State.reset.core
    { State.reset.core with
      phase := .idle, idx := 0, bitpos := 0, tick := 0, gapcnt := 0, status := .none, sentCount := 0, doneR := false } ∧
  (∀ bt : Nat, 1 ≤ bt → Legal (State.resetAt bt)) ∧ Legal State.reset ∧ FrameSound State.reset ∧
  ReportSound State.reset.core ∧
  State.reset.outputs.txd = true ∧ State.reset.outputs.busy = false ∧ State.reset.outputs.done = false

/-- An edge with `rst = 1` gives the values of R50 whatever the phase, the request and `chan_ok`: no request is accepted and
an open transaction ends with no outcome (R210, R211). The unspecified frame registers are not stated. -/
def Obligations.ResetEdgeGivesTheResetValues : Prop :=
  ∀ s : State, Legal s → s.pins.rst = true →
    ∃ t, step s = .next t ∧ t.core.phase = .idle ∧ t.core.idx = 0 ∧ t.core.bitpos = 0 ∧ t.core.tick = 0 ∧
      t.core.gapcnt = 0 ∧ t.core.status = .none ∧ t.core.sentCount = 0 ∧ t.core.doneR = false ∧
      t.core.txd = true ∧ t.core.busy = false ∧ t.pins = s.nextPins ∧
      t.core.reqReady t.pins.rst = !t.pins.rst

/-- A further edge with `rst = 1` leaves the registers as the first one left them (R212). For the four frame registers this
is the model's reading of an unspecified value (log entry 3). -/
def Obligations.FurtherResetEdgesChangeNothing : Prop :=
  ∀ s : State, Legal s → s.pins.rst = true →
    ∃ t, step s = .next t ∧ (t.pins.rst = true → ∃ u, step t = .next u ∧ u.core = t.core)

/-- What the frame registers hold in IDLE cannot be observed: two states that differ only in them, and in the free value's
number, show the same outputs in every cycle for every sequence of inputs (R50). -/
def Obligations.IdleFrameRegistersAreUnobservable : Prop :=
  ∀ (n : Nat) (s s' : State), Legal s → s.core.phase = .idle → AgreeButFrame s.core s'.core →
    s'.pins = s.pins → s'.stimulus = s.stimulus → s'.bitTicks = s.bitTicks → outputTrace n s' = outputTrace n s

/-! ## The accepting edge and the SEND instructions -/

/-- Where a request word is accepted and decodes to an instruction, the step is that instruction's meaning and then the next
cycle's input levels. -/
def Obligations.StepRunsTheDecodedInstruction : Prop :=
  ∀ (s : State) (i : Instr), Legal s → s.core.phase = .idle → s.pins.rst = false → s.pins.reqValid = true →
    decode s.pins.reqWord = .ok i → step s = advanceOutcome (exec i s)

/-- The accepting edge: what it does with every word, in the order of R110's tests. -/
def Obligations.AcceptingEdge : Prop :=
  ∀ s : State, Legal s → s.pins.rst = false → s.core.phase = .idle → s.pins.reqValid = true →
    (validWord s.pins.reqWord = false → step s = .next (s.withCore (ended s.core .errConfig 0)).advance) ∧
    (validWord s.pins.reqWord = true → s.pins.chanOk = false →
      step s = .next (s.withCore (ended s.core .errPort 0)).advance) ∧
    (∀ f : Frame, s.pins.chanOk = true → encodeRequest s.pins.reqWord = some (frameBytes f) →
      validWord s.pins.reqWord = true ∧ modeTable (modeField s.pins.reqWord) = some f.mode ∧
      levelTable (brightField s.pins.reqWord) = some f.bright ∧ levelTable (speedField s.pins.reqWord) = some f.speed ∧
      f.checksum = u8 (0xFA + f.mode.toNat + f.bright.toNat + f.speed.toNat) ∧
      step s = .next (s.withCore (started s.core f)).advance) ∧
    (validWord s.pins.reqWord = true → ∃ f : Frame, encodeRequest s.pins.reqWord = some (frameBytes f))

/-- `SEND.OFF b, s` with valid levels at a ready block with the channel up starts its frame (R120). -/
def Obligations.SendOffStartsItsFrame : Prop :=
  (∀ (b sp : Code) (s : State), levelValid b = true → levelValid sp = true → s.core.phase = .idle → s.pins.rst = false →
    s.pins.chanOk = true → exec (.sendOff b sp) s = .next (s.withCore (started s.core (sentFrame 0x04 b sp)))) ∧
  (∀ b sp : Code, levelValid b = true → levelValid sp = true →
    0x100 ≤ unreducedSum (sentFrame 0x04 b sp) ∧ unreducedSum (sentFrame 0x04 b sp) ≤ 0x108) ∧
  unreducedSum (sentFrame 0x04 5 5) = 0x100 ∧ (sentFrame 0x04 5 5).checksum = 0x00 ∧
  (sentFrame 0x04 1 1).checksum = 0x08 ∧
  decode 0x0D8 = .ok (.sendOff 3 3) ∧ encodeRequest 0x0D8 = some [0xFA, 0x04, 0x03, 0x03, 0x04]

/-- `SEND.AUTO b, s` with valid levels at a ready block with the channel up starts its frame (R121). -/
def Obligations.SendAutoStartsItsFrame : Prop :=
  (∀ (b sp : Code) (s : State), levelValid b = true → levelValid sp = true → s.core.phase = .idle → s.pins.rst = false →
    s.pins.chanOk = true → exec (.sendAuto b sp) s = .next (s.withCore (started s.core (sentFrame 0x05 b sp)))) ∧
  (∀ b sp : Code, levelValid b = true → levelValid sp = true →
    0x101 ≤ unreducedSum (sentFrame 0x05 b sp) ∧ unreducedSum (sentFrame 0x05 b sp) ≤ 0x109) ∧
  unreducedSum (sentFrame 0x05 1 1) = 0x109 ∧ (sentFrame 0x05 1 1).checksum = 0x09 ∧
  (∀ (m : Mode) (b sp : Code) (f : Frame), frameOf m b sp = some f → unreducedSum f ≤ 0x109) ∧
  (sentFrame 0x05 5 5).checksum = 0x01 ∧
  decode 0x049 = .ok (.sendAuto 1 1) ∧ encodeRequest 0x049 = some [0xFA, 0x05, 0x05, 0x05, 0x09]

/-- `SEND.RAINBOW b, s` with valid levels at a ready block with the channel up starts its frame (R122). -/
def Obligations.SendRainbowStartsItsFrame : Prop :=
  (∀ (b sp : Code) (s : State), levelValid b = true → levelValid sp = true → s.core.phase = .idle → s.pins.rst = false →
    s.pins.chanOk = true → exec (.sendRainbow b sp) s = .next (s.withCore (started s.core (sentFrame 0x01 b sp)))) ∧
  unreducedSum (sentFrame 0x01 5 5) = 0xFD ∧ (sentFrame 0x01 5 5).checksum = 0xFD ∧
  (∀ (m : Mode) (b sp : Code) (f : Frame), frameOf m b sp = some f → 0xFD ≤ unreducedSum f) ∧
  (∀ p ∈ ([(3, 5), (4, 4), (5, 3)] : List (Code × Code)),
    (sentFrame 0x01 p.1 p.2).checksum = 0xFF ∧ unreducedSum (sentFrame 0x01 p.1 p.2) = 0xFF) ∧
  (∀ p ∈ ([(2, 5), (3, 4), (4, 3), (5, 2)] : List (Code × Code)),
    (sentFrame 0x01 p.1 p.2).checksum = 0x00 ∧ unreducedSum (sentFrame 0x01 p.1 p.2) = 0x100) ∧
  (levelPairs.filter fun p => decide (unreducedSum (sentFrame 0x01 p.1 p.2) < 256)).length = 6 ∧
  decode 0x06A = .ok (.sendRainbow 5 1) ∧ encodeRequest 0x06A = some [0xFA, 0x01, 0x01, 0x05, 0x01]

/-- `SEND.BREATHING b, s` with valid levels at a ready block with the channel up starts its frame (R123). -/
def Obligations.SendBreathingStartsItsFrame : Prop :=
  (∀ (b sp : Code) (s : State), levelValid b = true → levelValid sp = true → s.core.phase = .idle → s.pins.rst = false →
    s.pins.chanOk = true → exec (.sendBreathing b sp) s = .next (s.withCore (started s.core (sentFrame 0x02 b sp)))) ∧
  (sentFrame 0x02 5 5).checksum = 0xFE ∧
  (∀ p ∈ ([(4, 5), (5, 4)] : List (Code × Code)), (sentFrame 0x02 p.1 p.2).checksum = 0xFF) ∧
  (∀ p ∈ ([(3, 5), (4, 4), (5, 3)] : List (Code × Code)), (sentFrame 0x02 p.1 p.2).checksum = 0x00) ∧
  (levelPairs.filter fun p => decide (unreducedSum (sentFrame 0x02 p.1 p.2) < 256)).length = 3 ∧
  decode 0x0DB = .ok (.sendBreathing 3 3) ∧ encodeRequest 0x0DB = some [0xFA, 0x02, 0x03, 0x03, 0x02]

/-- `SEND.CYCLE b, s` with valid levels at a ready block with the channel up starts its frame (R124). -/
def Obligations.SendCycleStartsItsFrame : Prop :=
  (∀ (b sp : Code) (s : State), levelValid b = true → levelValid sp = true → s.core.phase = .idle → s.pins.rst = false →
    s.pins.chanOk = true → exec (.sendCycle b sp) s = .next (s.withCore (started s.core (sentFrame 0x03 b sp)))) ∧
  (sentFrame 0x03 5 5).checksum = 0xFF ∧
  (levelPairs.filter fun p => decide (unreducedSum (sentFrame 0x03 p.1 p.2) < 256)) = [(5, 5)] ∧
  (∀ p ∈ ([(4, 5), (5, 4)] : List (Code × Code)), (sentFrame 0x03 p.1 p.2).checksum = 0x00) ∧
  (sentFrame 0x03 1 1).checksum = 0x07 ∧
  decode 0x16C = .ok (.sendCycle 5 5) ∧ encodeRequest 0x16C = some [0xFA, 0x03, 0x01, 0x01, 0xFF]

/-- The two exceptions a SEND takes at its accepting edge: ERR_CONFIG where a level is invalid, whatever `chan_ok`, and else
ERR_PORT where the channel is down (R110, R186). -/
def Obligations.SendTakesItsExceptions : Prop :=
  ∀ (i : Instr) (s : State), s.core.phase = .idle → s.pins.rst = false →
    (i.wellFormed = false → exec i s = .next (s.withCore (ended s.core .errConfig 0))) ∧
    (i.wellFormed = true → s.pins.chanOk = false → exec i s = .next (s.withCore (ended s.core .errPort 0)))

/-- The frame of the five SEND instructions, at a block that accepts them: the input levels, what the host will drive,
`BIT_TICKS` and the free value's number stay; a request that starts keeps `status`; one that ends in an exception keeps the
sequencer's counters and the frame registers. There is no memory (R60). -/
def Obligations.SendLeavesTheRestUnchanged : Prop :=
  ∀ (i : Instr) (s t : State), exec i s = .next t →
    (t.pins = s.pins ∧ t.stimulus = s.stimulus ∧ t.bitTicks = s.bitTicks ∧ t.resetDraw = s.resetDraw) ∧
    (s.core.phase = .idle → s.pins.rst = false →
      (i.wellFormed = true → s.pins.chanOk = true → t.core.status = s.core.status) ∧
      (i.wellFormed = false ∨ s.pins.chanOk = false →
        t.core.phase = .idle ∧ t.core.idx = s.core.idx ∧ t.core.bitpos = s.core.bitpos ∧ t.core.tick = s.core.tick ∧
        t.core.gapcnt = s.core.gapcnt ∧ t.core.frame = s.core.frame))

/-- A SEND presented while the block is busy is not accepted (R21, R185), and the edge is the one the block makes anyway, the
same for every instruction. By R11 an instruction is an accepted request; that `exec` of one which is not accepted is the
sequencer's edge is the model's choice (log entry 8, DEDUCED). -/
def Obligations.SendWhileBusyIsNotAccepted : Prop :=
  ∀ (i : Instr) (s : State), Legal s → s.core.phase ≠ .idle → s.pins.rst = false →
    exec i s = .next (s.withCore (s.core.sequence s.bitTicks s.pins.chanOk)) ∧ step s = advanceOutcome (exec i s)

/-- An invalid request word accepted ends in ERR_CONFIG, code 2, with no byte sent, whatever `chan_ok`; the words that are
invalid (R182). -/
def Obligations.InvalidRequestEndsInErrConfig : Prop :=
  (∀ s : State, Legal s → s.core.phase = .idle → s.pins.rst = false → s.pins.reqValid = true →
    validWord s.pins.reqWord = false →
    ∃ t, step s = .next t ∧ t.core = ended s.core .errConfig 0 ∧ t.outputs.status = 2 ∧ t.outputs.sentCount = 0 ∧
      s.core.txd = true ∧ t.core.txd = true ∧ t.core.frame = s.core.frame) ∧
  (∀ w : ReqWord, validWord w = false ↔
    modeField w ∈ ([5, 6, 7] : List Code) ∨ brightField w ∈ ([0, 6, 7] : List Code) ∨
      speedField w ∈ ([0, 6, 7] : List Code))

/-- A valid request accepted with the channel down ends in ERR_PORT, code 3, with no byte sent and no frame register
written (R183). -/
def Obligations.ClosedChannelEndsInErrPort : Prop :=
  ∀ s : State, Legal s → s.core.phase = .idle → s.pins.rst = false → s.pins.reqValid = true →
    validWord s.pins.reqWord = true → s.pins.chanOk = false →
    ∃ t, step s = .next t ∧ t.core = ended s.core .errPort 0 ∧ t.outputs.status = 3 ∧ t.outputs.sentCount = 0 ∧
      s.core.txd = true ∧ t.core.txd = true ∧ t.core.frame = s.core.frame

/-- `raise E(sent = n)` writes four registers and nothing else (R181). -/
def Obligations.RaiseWritesFourRegisters : Prop :=
  ∀ (r : Regs) (e : Status) (n : Fin 6), r.raise e n = ended r e n

/-! ## The sequencer's edges -/

/-- Phase IDLE with no request: no register changes except `done_r`, and the line stays at mark (R142). -/
def Obligations.IdleEdgeChangesNothing : Prop :=
  ∀ s : State, Legal s → s.pins.rst = false → s.core.phase = .idle → s.pins.reqValid = false →
    step s = .next (s.withCore { s.core with doneR := false }).advance ∧
    s.core.txd = true ∧ { s.core with doneR := false }.txd = true

/-- The baud counter in BIT and GAP (R144). -/
def Obligations.BaudCounter : Prop :=
  ∀ s : State, Legal s → s.pins.rst = false → s.core.phase ≠ .idle →
    (s.core.tick < s.bitTicks - 1 →
      step s = .next (s.withCore { s.core with tick := s.core.tick + 1, doneR := false }).advance) ∧
    (¬ s.core.tick < s.bitTicks - 1 → ∃ t, step s = .next t ∧ t.core.tick = 0) ∧
    (s.bitTicks = 1 → ¬ s.core.tick < s.bitTicks - 1)

/-- The next slot of the same character goes on the line (R145). -/
def Obligations.NextSlotOfTheCharacter : Prop :=
  ∀ s : State, Legal s → s.pins.rst = false → s.core.phase = .bit → s.core.tick = s.bitTicks - 1 → s.core.bitpos.val < 9 →
    step s = .next (s.withCore
      { s.core with tick := 0, bitpos := s.core.bitpos + 1, doneR := false }).advance ∧
    (s.core.bitpos + 1).val = s.core.bitpos.val + 1 ∧
    { s.core with tick := 0, bitpos := s.core.bitpos + 1, doneR := false }.txd =
      charSlot (s.core.selByte s.core.idx) (s.core.bitpos + 1)

/-- The stop bit of one of bytes 0 to 3 has ended: the delay after it starts at this edge (R146). -/
def Obligations.StopBitStartsTheGap : Prop :=
  ∀ s : State, Legal s → s.pins.rst = false → s.core.phase = .bit → s.core.tick = s.bitTicks - 1 → s.core.bitpos = 9 →
    s.core.idx.val ≤ 3 →
    step s = .next (s.withCore
      { s.core with tick := 0, sentCount := s.core.idx.succ, phase := .gap, gapcnt := 0, doneR := false }).advance

/-- The stop bit of the checksum byte has ended: the transaction completes with OK and no delay follows (R147). -/
def Obligations.ChecksumStopBitCompletes : Prop :=
  ∀ s : State, Legal s → s.pins.rst = false → s.core.phase = .bit → s.core.tick = s.bitTicks - 1 → s.core.bitpos = 9 →
    s.core.idx = 4 →
    step s = .next (s.withCore
      { s.core with tick := 0, sentCount := 5, status := .ok, phase := .idle, doneR := true }).advance

/-- One more bit period of the delay, the line at mark (R148). -/
def Obligations.GapCountsBitPeriods : Prop :=
  ∀ s : State, Legal s → s.pins.rst = false → s.core.phase = .gap → s.core.tick = s.bitTicks - 1 → s.core.gapcnt.val < 49 →
    step s = .next (s.withCore
      { s.core with tick := 0, gapcnt := s.core.gapcnt + 1, doneR := false }).advance ∧
    (s.core.gapcnt + 1).val = s.core.gapcnt.val + 1 ∧ s.core.txd = true

/-- The delay has run its full length and the channel is up: the next byte's start bit begins (R149). -/
def Obligations.GapEndStartsTheNextByte : Prop :=
  ∀ s : State, Legal s → s.pins.rst = false → s.core.phase = .gap → s.core.tick = s.bitTicks - 1 → s.core.gapcnt.val = 49 →
    s.pins.chanOk = true →
    step s = .next (s.withCore
      { s.core with tick := 0, idx := s.core.idx + 1, bitpos := 0, phase := .bit, doneR := false }).advance ∧
    (s.core.idx + 1).val = s.core.idx.val + 1

/-- The delay has run its full length and the channel is down: the write fails and the transaction ends at once; the byte
count is the one the stop bit wrote, and the line stays at mark (R150). -/
def Obligations.GapEndWithChannelDownFails : Prop :=
  ∀ s : State, Legal s → s.pins.rst = false → s.core.phase = .gap → s.core.tick = s.bitTicks - 1 → s.core.gapcnt.val = 49 →
    s.pins.chanOk = false →
    step s = .next (s.withCore (ended { s.core with tick := 0 } .errTx s.core.sentCount)).advance ∧
    s.core.sentCount.val = s.core.idx.val + 1 ∧ s.core.txd = true ∧
    (ended { s.core with tick := 0 } .errTx s.core.sentCount).txd = true

/-! ## Every step -/

/-- The step that fetches, decodes and dispatches is the next-state function of R152 on every state of R40's set, and it
never faults and never refuses there. -/
def Obligations.StepIsTheAssembledFunction : Prop :=
  ∀ s : State, Legal s →
    step s = .next (s.withCore (assembledStep s.bitTicks s.resetDraw s.core s.pins)).advance

/-- A value of the state type outside R40's set has no step (R40); the one kind of state that has a step although R40's last
clause fails is the first character of a transaction after an ERR_TX (log entry 6, DEDUCED). -/
def Obligations.IllegalValueHasNoStep : Prop :=
  ∀ s : State, ¬ Legal s → step s = .refused .notAState

/-- R40's last clause fails while a transaction runs after an ERR_TX: `status` keeps ERR_TX and `sent_count` is 0 (R110,
R188; log entry 6). -/
def Obligations.ErrTxReportOutlivesItsCount : Prop :=
  ∃ s t : State, Legal s ∧ ReportSound s.core ∧ step s = .next t ∧ t.core.phase = .bit ∧ t.core.status = .errTx ∧
    t.core.sentCount = 0

/-- Every step moves to the input levels the host drives next and changes neither `BIT_TICKS` nor what comes after (the
model's form of R11 and R13, log entries 1, 2 and 3). -/
def Obligations.StepMovesToTheNextInputs : Prop :=
  ∀ s t : State, step s = .next t →
    t.bitTicks = s.bitTicks ∧ t.pins = s.pinsAt 1 ∧ t.stimulus = s.stimulus.tail ∧
    t.resetDraw = (if s.pins.rst then s.resetDraw else s.resetDraw + 1)

/-- The set of states that have a step is kept by every step. Every clause of R40 as written is kept too, its last clause in
every phase, by every step but one: an accepting edge that starts a transaction after an ERR_TX, which leaves `status` and
clears `sent_count` (R110, R37); from that state R40 as written holds again from the gap after byte 0 on. That the model runs
such a state is log entry 6 (DEDUCED). -/
def Obligations.LegalStatesAreKept : Prop :=
  (∀ s t : State, Legal s → step s = .next t → Legal t) ∧
  (∀ s t : State, s.core.r40 s.bitTicks = true → step s = .next t →
    t.core.r40 t.bitTicks = true ∨
      (s.accepting = true ∧ s.core.status = .errTx ∧ t.core.status = .errTx ∧ AtByteStart t.core 0)) ∧
  (∀ s : State, Legal s → (s.core.phase = .bit → s.core.idx ≠ 0) → s.core.r40 s.bitTicks = true)

/-- From a legal state every run of any length goes on: no step of it stops. -/
def Obligations.LegalStatesNeverStop : Prop :=
  ∀ (k : Nat) (s : State), Legal s → ∃ t, Reaches k s t ∧ Legal t

/-- While a transaction is open the frame registers hold the frame of a valid word, and every step keeps that (R62, R108). -/
def Obligations.OpenTransactionHoldsAFrame : Prop :=
  ∀ s t : State, FrameSound s → step s = .next t → FrameSound t

/-- In IDLE the outcome and the byte count agree as R180 says, and every step keeps that. -/
def Obligations.ReportStaysSound : Prop :=
  ∀ s t : State, ReportSound s.core → step s = .next t → ReportSound t.core

/-- `done_r` is 1 after an edge exactly when that edge completes a transaction with an outcome (R39). -/
def Obligations.DoneFollowsEachCompletingEdge : Prop :=
  ∀ s t : State, step s = .next t → (t.core.doneR = true ↔ ∃ o, s.outcomeAtEdge = some o)

/-- `status` is written at a completing edge, with its outcome, and by reset, and at no other edge; its code is never 5 to 7
(R37). -/
def Obligations.StatusIsWrittenAtCompletionOnly : Prop :=
  ∀ s t : State, step s = .next t →
    t.core.status = (if s.pins.rst then .none else s.outcomeAtEdge.getD s.core.status) ∧ t.core.status.code.toNat ≤ 4

/-- `sent_count` is 0 after a reset edge and after an accepting edge, `idx + 1` after the edge that ends a character's stop
bit, and else unchanged (R38). -/
def Obligations.SentCountCountsStopBits : Prop :=
  ∀ s t : State, step s = .next t →
    t.core.sentCount.val =
      (if s.pins.rst = true ∨ s.accepting = true then 0
       else if s.core.phase = .bit ∧ s.core.tick = s.bitTicks - 1 ∧ s.core.bitpos = 9 then s.core.idx.val + 1
       else s.core.sentCount.val)

/-- The frame is immutable in a transaction: no edge with `rst = 0` in phase BIT or GAP writes a frame register, and an edge
in IDLE writes them only where it starts a transaction (R62). -/
def Obligations.FrameIsImmutableInATransaction : Prop :=
  ∀ s t : State, step s = .next t → s.pins.rst = false →
    (s.core.phase ≠ .idle → t.core.frame = s.core.frame) ∧
    (t.core.frame ≠ s.core.frame → s.accepting = true ∧ t.core.phase = .bit ∧
      encodeRequest s.pins.reqWord = some (frameBytes t.core.frame))

/-- Bytes are sent in offset order: `idx` moves by one at the end of a gap, to 0 where a transaction starts, and at no other
edge without reset (R64, R70). -/
def Obligations.BytesGoInOffsetOrder : Prop :=
  ∀ s t : State, step s = .next t → s.pins.rst = false →
    t.core.idx = s.core.idx ∨
    (s.core.phase = .gap ∧ t.core.phase = .bit ∧ t.core.idx.val = s.core.idx.val + 1 ∧ t.core.bitpos = 0) ∨
    (s.accepting = true ∧ t.core.phase = .bit ∧ t.core.idx = 0 ∧ t.core.bitpos = 0)

/-- While busy, the request port has no effect on the registers (R21, R73, R221). -/
def Obligations.RequestWhileBusyHasNoEffect : Prop :=
  ∀ (s : State) (v : Bool) (w : ReqWord), Legal s → s.core.phase ≠ .idle →
    ∃ t t', step s = .next t ∧ step (withRequest s v w) = .next t' ∧ t'.core = t.core

/-- `chan_ok` decides the registers after an edge exactly at the edges that sample it: the acceptance of a valid request and
the end of a gap (R23). -/
def Obligations.ChanOkIsSampledAtTwoKindsOfEdge : Prop :=
  ∀ s : State, Legal s →
    ∃ t t', step s = .next t ∧ step (withChanOk s (!s.pins.chanOk)) = .next t' ∧
      (t'.core ≠ t.core ↔ SamplesChanOk s)

/-- After a completing edge the block is idle with the line at mark, and the next edge can accept (R156). -/
def Obligations.CompletingEdgeLeavesTheBlockReady : Prop :=
  ∀ (s t : State) (o : Status), step s = .next t → s.outcomeAtEdge = some o →
    t.core.phase = .idle ∧ t.core.txd = true ∧ t.core.status = o ∧
    (t.pins.rst = false → t.core.reqReady t.pins.rst = true ∧
      (t.pins.reqValid = true → t.accepting = true))

/-! ## Characters, gaps and transactions -/

/-- A character, once started, is sent whole whatever the channel and the request port do: for `10 * BIT_TICKS` cycles the
line shows its ten slots, and then its byte counts as sent (R67, R153). -/
def Obligations.CharacterIsSentWhole : Prop :=
  ∀ (s : State) (k : Fin 5), Legal s → AtByteStart s.core k → NoReset s (10 * s.bitTicks) →
    (∀ (j : Fin 10) (c : Nat), c < s.bitTicks →
      ∃ t, Reaches (j.val * s.bitTicks + c) s t ∧ t.core.phase = .bit ∧ t.core.idx = k ∧ t.core.bitpos = j ∧
        t.core.tick = c ∧ t.core.frame = s.core.frame ∧ t.core.txd = charSlot (s.core.selByte k) j) ∧
    ∃ t, Reaches (10 * s.bitTicks) s t ∧ t.core.sentCount.val = k.val + 1 ∧ t.core.frame = s.core.frame ∧
      (k.val < 4 → AtGapStart t.core k) ∧
      (k = 4 → t.core.phase = .idle ∧ t.core.status = .ok ∧ t.core.doneR = true)

/-- A gap lasts exactly `50 * BIT_TICKS` cycles of mark, whatever the channel does before its last edge; then the next
byte starts or, with the channel down at that edge, the transaction ends with ERR_TX (R71, R148 to R150). -/
def Obligations.GapLastsFiftyBitPeriods : Prop :=
  ∀ (s : State) (k : Fin 5), Legal s → AtGapStart s.core k → NoReset s (50 * s.bitTicks) →
    (∀ e, e < 50 * s.bitTicks →
      ∃ t, Reaches e s t ∧ t.core.phase = .gap ∧ t.core.idx = k ∧ t.core.gapcnt.val = e / s.bitTicks ∧
        t.core.tick = e % s.bitTicks ∧ t.core.txd = true) ∧
    ∃ t, Reaches (50 * s.bitTicks) s t ∧ t.core.frame = s.core.frame ∧ t.core.sentCount.val = k.val + 1 ∧
      (if (s.pinsAt (50 * s.bitTicks - 1)).chanOk then ∃ j : Fin 5, j.val = k.val + 1 ∧ AtByteStart t.core j
       else t.core.phase = .idle ∧ t.core.status = .errTx ∧ t.core.doneR = true)

/-- Pacing: after the start bit of one of bytes 0 to 3, whatever the inputs but reset, the line is at mark from the end of
its stop bit for `50 * BIT_TICKS` cycles, no byte starts before `60 * BIT_TICKS` cycles have passed, and one that starts then
is the next in offset order (R157, R220). -/
def Obligations.PacingHolds : Prop :=
  ∀ (s t : State) (k : Fin 5) (n : Nat), Legal s → AtByteStart s.core k → k.val < 4 → NoReset s n →
    0 < n → n ≤ 60 * s.bitTicks → Reaches n s t →
    (10 * s.bitTicks ≤ n → n < 60 * s.bitTicks → t.core.phase = .gap ∧ t.core.txd = true) ∧
    ∀ j : Fin 5, AtByteStart t.core j →
      n = 60 * s.bitTicks ∧ j.val = k.val + 1 ∧ (s.pinsAt (n - 1)).chanOk = true

/-- The timing of a whole transaction from its accepting edge (R153): the state after the edge that is `n` edges after it is
the one reached in `n + 1` steps. -/
def Obligations.TransactionTiming : Prop :=
  (∀ (s : State) (f : Frame), Opens s f → ChecksPass s 4 →
    (∀ (k : Fin 5) (j : Fin 10) (c : Nat), c < s.bitTicks →
      ∃ t, Reaches ((60 * k.val + j.val) * s.bitTicks + c + 1) s t ∧ t.core.phase = .bit ∧ t.core.idx = k ∧
        t.core.bitpos = j ∧ t.core.sentCount.val = k.val ∧
        some t.core.txd = ((frameBytes f)[k.val]?).map fun v => charSlot v j) ∧
    (∀ (k : Fin 5) (c : Nat), k.val < 4 → c < 50 * s.bitTicks →
      ∃ t, Reaches ((60 * k.val + 10) * s.bitTicks + c + 1) s t ∧ t.core.phase = .gap ∧ t.core.idx = k ∧
        t.core.txd = true ∧ t.core.sentCount.val = k.val + 1) ∧
    ∃ t, Reaches (250 * s.bitTicks + 1) s t ∧ t.core.phase = .idle ∧ t.core.status = .ok ∧ t.core.sentCount.val = 5 ∧
      t.core.doneR = true ∧ s.outputs.busy = false) ∧
  Config.bitPeriodsMicros 10 = 1000 ∧ Config.bitPeriodsMicros 50 = 5000 ∧ Config.bitPeriodsMicros 60 = 6000 ∧
  Config.bitPeriodsMicros 250 = 25000 ∧ ∀ bt, Config.clockHz bt = 10000 * bt

/-- A channel down at the write check before byte `k + 1` ends the transaction there with ERR_TX, code 4, and
`sent_count = k + 1` (R150, R184). -/
def Obligations.WriteCheckFailureEndsInErrTx : Prop :=
  ∀ (s : State) (f : Frame) (k : Nat), k < 4 → Opens s f → ChecksPass s k →
    (s.pinsAt (60 * (k + 1) * s.bitTicks)).chanOk = false →
    ∃ t, Reaches (60 * (k + 1) * s.bitTicks + 1) s t ∧ t.core.phase = .idle ∧ t.core.status = .errTx ∧
      t.outputs.status = 4 ∧ t.core.sentCount.val = k + 1 ∧ t.core.doneR = true ∧ t.core.txd = true ∧
      t.core.frame = f

/-- The line trace of a transaction (R154), up to and including the cycle after its completing edge: the five bytes of its
frame, `60 * BIT_TICKS` cycles apart, where every write check passes; bytes 0 to `k` where the one at the end of gap `k` is the
first to fail, so that byte `k + 1`, whose start bit would begin in the last of these cycles, stays off the line; and nothing
where the request ends in ERR_CONFIG or ERR_PORT. Cycle 0 is the cycle before the accepting edge. -/
def Obligations.LineTraceOfATransaction : Prop :=
  (∀ (s : State) (f : Frame), Opens s f →
    (ChecksPass s 4 → lineTrace (250 * s.bitTicks + 2) 0 s =
      (frameBytes f).mapIdx fun k v => (v, 60 * k * s.bitTicks + 1)) ∧
    (∀ k, k < 4 → ChecksPass s k → (s.pinsAt (60 * (k + 1) * s.bitTicks)).chanOk = false →
      lineTrace (60 * (k + 1) * s.bitTicks + 2) 0 s =
        ((frameBytes f).take (k + 1)).mapIdx fun j v => (v, 60 * j * s.bitTicks + 1))) ∧
  (∀ s : State, Legal s → s.core.phase = .idle → s.pins.rst = false → s.pins.reqValid = true →
    validWord s.pins.reqWord = false ∨ s.pins.chanOk = false → lineTrace 2 0 s = [])

/-! ## The host -/

/-- A run begins with a reset (R213). After any `CHAN` lines, which take no cycle, a power-up program whose next directive is a
request or a wait is refused, and one whose next directive is a reset never stops, whatever follows. A reset of one or more
cycles gives the reset values of every register but the four frame registers from every legal state, and then `rst = 0`,
`req_valid = 0` and the block is ready (R50, R92). That the model refuses the run, and what the host drives between its
directives, is log entry 12 (DEDUCED). -/
def Obligations.RunBeginsWithAReset : Prop :=
  (∀ (bt n : Nat) (cs : List Bool) (d : Directive) (rest : List Directive),
    (d = .waitDone ∨ (∃ w, d = .req w) ∨ ∃ k, d = .wait (k + 1)) →
    runFromPowerUp bt n (cs.map .chan ++ d :: rest) = .refused .noReset) ∧
  (∀ (bt n k : Nat) (cs : List Bool) (rest : List Directive), 1 ≤ bt →
    ∃ t, runFromPowerUp bt n (cs.map .chan ++ .reset (k + 1) :: rest) = .next t ∧ Legal t ∧ t.bitTicks = bt) ∧
  (∀ (s : State) (n : Nat), Legal s →
    ∃ t, runProgram (n + 1) [.reset (n + 1)] s = .next t ∧ AgreeButFrame t.core Regs.reset ∧
      t.pins = { s.pins with rst := false, reqValid := false } ∧ t.bitTicks = s.bitTicks ∧ t.outputs.reqReady = true)
end

