-- ==== Sys2Proof/Laws/State.lean ====
section
/-! SUPPORT. One lemma for each field of each named update of the state, so that no later proof unfolds a record update. -/

namespace Sys2Proof.Machine

/-! ### `Regs.raise` -/

section
variable (r : Regs) (e : Status) (n : Fin 6)
@[simp] theorem Regs.raise_phase : (r.raise e n).phase = .idle := rfl
@[simp] theorem Regs.raise_idx : (r.raise e n).idx = r.idx := rfl
@[simp] theorem Regs.raise_bitpos : (r.raise e n).bitpos = r.bitpos := rfl
@[simp] theorem Regs.raise_tick : (r.raise e n).tick = r.tick := rfl
@[simp] theorem Regs.raise_gapcnt : (r.raise e n).gapcnt = r.gapcnt := rfl
@[simp] theorem Regs.raise_fbMode : (r.raise e n).fbMode = r.fbMode := rfl
@[simp] theorem Regs.raise_fbBright : (r.raise e n).fbBright = r.fbBright := rfl
@[simp] theorem Regs.raise_fbSpeed : (r.raise e n).fbSpeed = r.fbSpeed := rfl
@[simp] theorem Regs.raise_acc : (r.raise e n).acc = r.acc := rfl
@[simp] theorem Regs.raise_status : (r.raise e n).status = e := rfl
@[simp] theorem Regs.raise_sentCount : (r.raise e n).sentCount = n := rfl
@[simp] theorem Regs.raise_doneR : (r.raise e n).doneR = true := rfl
end

/-! ### `Regs.quiet` -/

section
variable (r : Regs)
@[simp] theorem Regs.quiet_phase : (r.quiet).phase = r.phase := rfl
@[simp] theorem Regs.quiet_idx : (r.quiet).idx = r.idx := rfl
@[simp] theorem Regs.quiet_bitpos : (r.quiet).bitpos = r.bitpos := rfl
@[simp] theorem Regs.quiet_tick : (r.quiet).tick = r.tick := rfl
@[simp] theorem Regs.quiet_gapcnt : (r.quiet).gapcnt = r.gapcnt := rfl
@[simp] theorem Regs.quiet_fbMode : (r.quiet).fbMode = r.fbMode := rfl
@[simp] theorem Regs.quiet_fbBright : (r.quiet).fbBright = r.fbBright := rfl
@[simp] theorem Regs.quiet_fbSpeed : (r.quiet).fbSpeed = r.fbSpeed := rfl
@[simp] theorem Regs.quiet_acc : (r.quiet).acc = r.acc := rfl
@[simp] theorem Regs.quiet_status : (r.quiet).status = r.status := rfl
@[simp] theorem Regs.quiet_sentCount : (r.quiet).sentCount = r.sentCount := rfl
@[simp] theorem Regs.quiet_doneR : (r.quiet).doneR = false := rfl
end

/-! ### `Regs.start` -/

section
variable (r : Regs) (f : Frame)
@[simp] theorem Regs.start_phase : (r.start f).phase = .bit := rfl
@[simp] theorem Regs.start_idx : (r.start f).idx = 0 := rfl
@[simp] theorem Regs.start_bitpos : (r.start f).bitpos = 0 := rfl
@[simp] theorem Regs.start_tick : (r.start f).tick = 0 := rfl
@[simp] theorem Regs.start_gapcnt : (r.start f).gapcnt = 0 := rfl
@[simp] theorem Regs.start_fbMode : (r.start f).fbMode = f.mode := rfl
@[simp] theorem Regs.start_fbBright : (r.start f).fbBright = f.bright := rfl
@[simp] theorem Regs.start_fbSpeed : (r.start f).fbSpeed = f.speed := rfl
@[simp] theorem Regs.start_acc : (r.start f).acc = f.checksum := rfl
@[simp] theorem Regs.start_status : (r.start f).status = r.status := rfl
@[simp] theorem Regs.start_sentCount : (r.start f).sentCount = 0 := rfl
@[simp] theorem Regs.start_doneR : (r.start f).doneR = false := rfl
end

/-! ### `Regs.countTick` -/

section
variable (r : Regs)
@[simp] theorem Regs.countTick_phase : (r.countTick).phase = r.phase := rfl
@[simp] theorem Regs.countTick_idx : (r.countTick).idx = r.idx := rfl
@[simp] theorem Regs.countTick_bitpos : (r.countTick).bitpos = r.bitpos := rfl
@[simp] theorem Regs.countTick_tick : (r.countTick).tick = r.tick + 1 := rfl
@[simp] theorem Regs.countTick_gapcnt : (r.countTick).gapcnt = r.gapcnt := rfl
@[simp] theorem Regs.countTick_fbMode : (r.countTick).fbMode = r.fbMode := rfl
@[simp] theorem Regs.countTick_fbBright : (r.countTick).fbBright = r.fbBright := rfl
@[simp] theorem Regs.countTick_fbSpeed : (r.countTick).fbSpeed = r.fbSpeed := rfl
@[simp] theorem Regs.countTick_acc : (r.countTick).acc = r.acc := rfl
@[simp] theorem Regs.countTick_status : (r.countTick).status = r.status := rfl
@[simp] theorem Regs.countTick_sentCount : (r.countTick).sentCount = r.sentCount := rfl
@[simp] theorem Regs.countTick_doneR : (r.countTick).doneR = false := rfl
end

/-! ### `Regs.nextSlot` -/

section
variable (r : Regs)
@[simp] theorem Regs.nextSlot_phase : (r.nextSlot).phase = r.phase := rfl
@[simp] theorem Regs.nextSlot_idx : (r.nextSlot).idx = r.idx := rfl
@[simp] theorem Regs.nextSlot_bitpos : (r.nextSlot).bitpos = r.bitpos + 1 := rfl
@[simp] theorem Regs.nextSlot_tick : (r.nextSlot).tick = 0 := rfl
@[simp] theorem Regs.nextSlot_gapcnt : (r.nextSlot).gapcnt = r.gapcnt := rfl
@[simp] theorem Regs.nextSlot_fbMode : (r.nextSlot).fbMode = r.fbMode := rfl
@[simp] theorem Regs.nextSlot_fbBright : (r.nextSlot).fbBright = r.fbBright := rfl
@[simp] theorem Regs.nextSlot_fbSpeed : (r.nextSlot).fbSpeed = r.fbSpeed := rfl
@[simp] theorem Regs.nextSlot_acc : (r.nextSlot).acc = r.acc := rfl
@[simp] theorem Regs.nextSlot_status : (r.nextSlot).status = r.status := rfl
@[simp] theorem Regs.nextSlot_sentCount : (r.nextSlot).sentCount = r.sentCount := rfl
@[simp] theorem Regs.nextSlot_doneR : (r.nextSlot).doneR = false := rfl
end

/-! ### `Regs.enterGap` -/

section
variable (r : Regs)
@[simp] theorem Regs.enterGap_phase : (r.enterGap).phase = .gap := rfl
@[simp] theorem Regs.enterGap_idx : (r.enterGap).idx = r.idx := rfl
@[simp] theorem Regs.enterGap_bitpos : (r.enterGap).bitpos = r.bitpos := rfl
@[simp] theorem Regs.enterGap_tick : (r.enterGap).tick = 0 := rfl
@[simp] theorem Regs.enterGap_gapcnt : (r.enterGap).gapcnt = 0 := rfl
@[simp] theorem Regs.enterGap_fbMode : (r.enterGap).fbMode = r.fbMode := rfl
@[simp] theorem Regs.enterGap_fbBright : (r.enterGap).fbBright = r.fbBright := rfl
@[simp] theorem Regs.enterGap_fbSpeed : (r.enterGap).fbSpeed = r.fbSpeed := rfl
@[simp] theorem Regs.enterGap_acc : (r.enterGap).acc = r.acc := rfl
@[simp] theorem Regs.enterGap_status : (r.enterGap).status = r.status := rfl
@[simp] theorem Regs.enterGap_sentCount : (r.enterGap).sentCount = r.idx.succ := rfl
@[simp] theorem Regs.enterGap_doneR : (r.enterGap).doneR = false := rfl
end

/-! ### `Regs.finish` -/

section
variable (r : Regs)
@[simp] theorem Regs.finish_phase : (r.finish).phase = .idle := rfl
@[simp] theorem Regs.finish_idx : (r.finish).idx = r.idx := rfl
@[simp] theorem Regs.finish_bitpos : (r.finish).bitpos = r.bitpos := rfl
@[simp] theorem Regs.finish_tick : (r.finish).tick = 0 := rfl
@[simp] theorem Regs.finish_gapcnt : (r.finish).gapcnt = r.gapcnt := rfl
@[simp] theorem Regs.finish_fbMode : (r.finish).fbMode = r.fbMode := rfl
@[simp] theorem Regs.finish_fbBright : (r.finish).fbBright = r.fbBright := rfl
@[simp] theorem Regs.finish_fbSpeed : (r.finish).fbSpeed = r.fbSpeed := rfl
@[simp] theorem Regs.finish_acc : (r.finish).acc = r.acc := rfl
@[simp] theorem Regs.finish_status : (r.finish).status = .ok := rfl
@[simp] theorem Regs.finish_sentCount : (r.finish).sentCount = 5 := rfl
@[simp] theorem Regs.finish_doneR : (r.finish).doneR = true := rfl
end

/-! ### `Regs.countGap` -/

section
variable (r : Regs)
@[simp] theorem Regs.countGap_phase : (r.countGap).phase = r.phase := rfl
@[simp] theorem Regs.countGap_idx : (r.countGap).idx = r.idx := rfl
@[simp] theorem Regs.countGap_bitpos : (r.countGap).bitpos = r.bitpos := rfl
@[simp] theorem Regs.countGap_tick : (r.countGap).tick = 0 := rfl
@[simp] theorem Regs.countGap_gapcnt : (r.countGap).gapcnt = r.gapcnt + 1 := rfl
@[simp] theorem Regs.countGap_fbMode : (r.countGap).fbMode = r.fbMode := rfl
@[simp] theorem Regs.countGap_fbBright : (r.countGap).fbBright = r.fbBright := rfl
@[simp] theorem Regs.countGap_fbSpeed : (r.countGap).fbSpeed = r.fbSpeed := rfl
@[simp] theorem Regs.countGap_acc : (r.countGap).acc = r.acc := rfl
@[simp] theorem Regs.countGap_status : (r.countGap).status = r.status := rfl
@[simp] theorem Regs.countGap_sentCount : (r.countGap).sentCount = r.sentCount := rfl
@[simp] theorem Regs.countGap_doneR : (r.countGap).doneR = false := rfl
end

/-! ### `Regs.nextByte` -/

section
variable (r : Regs)
@[simp] theorem Regs.nextByte_phase : (r.nextByte).phase = .bit := rfl
@[simp] theorem Regs.nextByte_idx : (r.nextByte).idx = r.idx + 1 := rfl
@[simp] theorem Regs.nextByte_bitpos : (r.nextByte).bitpos = 0 := rfl
@[simp] theorem Regs.nextByte_tick : (r.nextByte).tick = 0 := rfl
@[simp] theorem Regs.nextByte_gapcnt : (r.nextByte).gapcnt = r.gapcnt := rfl
@[simp] theorem Regs.nextByte_fbMode : (r.nextByte).fbMode = r.fbMode := rfl
@[simp] theorem Regs.nextByte_fbBright : (r.nextByte).fbBright = r.fbBright := rfl
@[simp] theorem Regs.nextByte_fbSpeed : (r.nextByte).fbSpeed = r.fbSpeed := rfl
@[simp] theorem Regs.nextByte_acc : (r.nextByte).acc = r.acc := rfl
@[simp] theorem Regs.nextByte_status : (r.nextByte).status = r.status := rfl
@[simp] theorem Regs.nextByte_sentCount : (r.nextByte).sentCount = r.sentCount := rfl
@[simp] theorem Regs.nextByte_doneR : (r.nextByte).doneR = false := rfl
end

/-! ### `Regs.failWrite` -/

section
variable (r : Regs)
@[simp] theorem Regs.failWrite_phase : (r.failWrite).phase = .idle := rfl
@[simp] theorem Regs.failWrite_idx : (r.failWrite).idx = r.idx := rfl
@[simp] theorem Regs.failWrite_bitpos : (r.failWrite).bitpos = r.bitpos := rfl
@[simp] theorem Regs.failWrite_tick : (r.failWrite).tick = 0 := rfl
@[simp] theorem Regs.failWrite_gapcnt : (r.failWrite).gapcnt = r.gapcnt := rfl
@[simp] theorem Regs.failWrite_fbMode : (r.failWrite).fbMode = r.fbMode := rfl
@[simp] theorem Regs.failWrite_fbBright : (r.failWrite).fbBright = r.fbBright := rfl
@[simp] theorem Regs.failWrite_fbSpeed : (r.failWrite).fbSpeed = r.fbSpeed := rfl
@[simp] theorem Regs.failWrite_acc : (r.failWrite).acc = r.acc := rfl
@[simp] theorem Regs.failWrite_status : (r.failWrite).status = .errTx := rfl
@[simp] theorem Regs.failWrite_sentCount : (r.failWrite).sentCount = r.idx.succ := rfl
@[simp] theorem Regs.failWrite_doneR : (r.failWrite).doneR = true := rfl
end

/-! ### `Regs.afterReset` -/

@[simp] theorem Regs.afterReset_phase (n : Nat) : (Regs.afterReset n).phase = .idle := rfl
@[simp] theorem Regs.afterReset_idx (n : Nat) : (Regs.afterReset n).idx = 0 := rfl
@[simp] theorem Regs.afterReset_bitpos (n : Nat) : (Regs.afterReset n).bitpos = 0 := rfl
@[simp] theorem Regs.afterReset_tick (n : Nat) : (Regs.afterReset n).tick = 0 := rfl
@[simp] theorem Regs.afterReset_gapcnt (n : Nat) : (Regs.afterReset n).gapcnt = 0 := rfl
@[simp] theorem Regs.afterReset_fbMode (n : Nat) : (Regs.afterReset n).fbMode = Config.resetByte n 0 := rfl
@[simp] theorem Regs.afterReset_fbBright (n : Nat) : (Regs.afterReset n).fbBright = Config.resetByte n 1 := rfl
@[simp] theorem Regs.afterReset_fbSpeed (n : Nat) : (Regs.afterReset n).fbSpeed = Config.resetByte n 2 := rfl
@[simp] theorem Regs.afterReset_acc (n : Nat) : (Regs.afterReset n).acc = Config.resetByte n 3 := rfl
@[simp] theorem Regs.afterReset_status (n : Nat) : (Regs.afterReset n).status = .none := rfl
@[simp] theorem Regs.afterReset_sentCount (n : Nat) : (Regs.afterReset n).sentCount = 0 := rfl
@[simp] theorem Regs.afterReset_doneR (n : Nat) : (Regs.afterReset n).doneR = false := rfl

/-! ### `State.withCore` -/

@[simp] theorem State.withCore_core (s : State) (c : Regs) : (s.withCore c).core = c := rfl
@[simp] theorem State.withCore_pins (s : State) (c : Regs) : (s.withCore c).pins = s.pins := rfl
@[simp] theorem State.withCore_stimulus (s : State) (c : Regs) : (s.withCore c).stimulus = s.stimulus := rfl
@[simp] theorem State.withCore_bitTicks (s : State) (c : Regs) : (s.withCore c).bitTicks = s.bitTicks := rfl
@[simp] theorem State.withCore_resetDraw (s : State) (c : Regs) : (s.withCore c).resetDraw = s.resetDraw := rfl

/-! ### `State.advance` -/

@[simp] theorem State.advance_core (s : State) : (s.advance).core = s.core := rfl
@[simp] theorem State.advance_pins (s : State) : (s.advance).pins = s.nextPins := rfl
@[simp] theorem State.advance_stimulus (s : State) : (s.advance).stimulus = s.stimulus.tail := rfl
@[simp] theorem State.advance_bitTicks (s : State) : (s.advance).bitTicks = s.bitTicks := rfl
@[simp] theorem State.advance_resetDraw (s : State) : (s.advance).resetDraw = (if s.pins.rst then s.resetDraw else s.resetDraw + 1) := rfl

/-! ### `State.plainEdge` -/

@[simp] theorem State.plainEdge_core (s : State) : (s.plainEdge).core = s.core.plainEdge s.bitTicks s.resetDraw s.pins := rfl
@[simp] theorem State.plainEdge_pins (s : State) : (s.plainEdge).pins = s.pins := rfl
@[simp] theorem State.plainEdge_stimulus (s : State) : (s.plainEdge).stimulus = s.stimulus := rfl
@[simp] theorem State.plainEdge_bitTicks (s : State) : (s.plainEdge).bitTicks = s.bitTicks := rfl
@[simp] theorem State.plainEdge_resetDraw (s : State) : (s.plainEdge).resetDraw = s.resetDraw := rfl

/-! ### `State.rejectEdge` -/

@[simp] theorem State.rejectEdge_core (s : State) : (s.rejectEdge).core = s.core.raise .errConfig 0 := rfl
@[simp] theorem State.rejectEdge_pins (s : State) : (s.rejectEdge).pins = s.pins := rfl
@[simp] theorem State.rejectEdge_stimulus (s : State) : (s.rejectEdge).stimulus = s.stimulus := rfl
@[simp] theorem State.rejectEdge_bitTicks (s : State) : (s.rejectEdge).bitTicks = s.bitTicks := rfl
@[simp] theorem State.rejectEdge_resetDraw (s : State) : (s.rejectEdge).resetDraw = s.resetDraw := rfl

end Sys2Proof.Machine
end

