-- ==== Sys2Proof/Laws/Ops.lean ====
section
/-! SUPPORT. For each shared operation one lemma that says everything it can do, and for `exec` and `step` the cases of
their answer. Later proofs cite these instead of unfolding the operations. -/

namespace Sys2Proof.Machine

/-! ### Tables and the frame -/

theorem levelTable_eq_some (c : Code) (h : levelValid c = true) : levelTable c = some (levelByFormula c) := by
  revert c; decide

theorem levelTable_eq_none (c : Code) (h : levelValid c = false) : levelTable c = none := by
  revert c; decide

/-- The accumulator's three wraparound additions are the sum modulo 256 (R107). -/
theorem accumulate_eq_checksum (mb bb sb : Byte) : accumulate mb bb sb = checksum mb bb sb := by
  apply BitVec.eq_of_toNat_eq
  simp [accumulate, checksum, u8, frameSum]

/-- The frame of valid operands (R108). -/
theorem frameOf_valid (m : Mode) (b s : Code) (hb : levelValid b = true) (hs : levelValid s = true) :
    frameOf m b s = some ⟨modeByte m, levelByFormula b, levelByFormula s,
      checksum (modeByte m) (levelByFormula b) (levelByFormula s)⟩ := by
  simp [frameOf, levelTable_eq_some b hb, levelTable_eq_some s hs, accumulate_eq_checksum]

/-- There is no frame for an invalid operand (R104). -/
theorem frameOf_invalid (m : Mode) (b s : Code) (h : (levelValid b && levelValid s) = false) :
    frameOf m b s = none := by
  rcases Bool.and_eq_false_iff.mp h with h | h
  · simp [frameOf, levelTable_eq_none b h]
  · cases hb : levelTable b <;> simp [frameOf, hb, levelTable_eq_none s h]

/-! ### The accepting edge -/

/-- Everything the accepting edge can do (R110). -/
theorem Regs.accept_cases (r : Regs) (m : Mode) (b s : Code) (c : Bool) :
    ((levelValid b && levelValid s) = false ∧ r.accept m b s c = r.raise .errConfig 0) ∨
    ((levelValid b && levelValid s) = true ∧ c = false ∧ r.accept m b s c = r.raise .errPort 0) ∨
    ((levelValid b && levelValid s) = true ∧ c = true ∧ ∃ f, frameOf m b s = some f ∧ r.accept m b s c = r.start f) := by
  cases h : (levelValid b && levelValid s)
  · exact .inl ⟨rfl, by simp [Regs.accept, frameOf_invalid m b s h]⟩
  · obtain ⟨hb, hs⟩ := Bool.and_eq_true_iff.mp h
    have hf := frameOf_valid m b s hb hs
    cases c
    · exact .inr (.inl ⟨rfl, rfl, by simp [Regs.accept, hf]⟩)
    · exact .inr (.inr ⟨rfl, rfl, _, hf, by simp [Regs.accept, hf]⟩)

/-! ### The sequencer's edges -/

/-- Everything the edge of phase BIT can do (R144 to R147). -/
theorem Regs.bitEdge_cases (r : Regs) (bt : Nat) :
    (r.tick < bt - 1 ∧ r.bitEdge bt = r.countTick) ∨
    (¬ r.tick < bt - 1 ∧ r.bitpos.val < 9 ∧ r.bitEdge bt = r.nextSlot) ∨
    (¬ r.tick < bt - 1 ∧ r.bitpos = 9 ∧ r.idx.val < 4 ∧ r.bitEdge bt = r.enterGap) ∨
    (¬ r.tick < bt - 1 ∧ r.bitpos = 9 ∧ r.idx = 4 ∧ r.bitEdge bt = r.finish) := by
  by_cases ht : r.tick < bt - 1
  · exact .inl ⟨ht, by simp [Regs.bitEdge, Regs.atBoundary, ht]⟩
  · by_cases hb : r.bitpos.val < 9
    · exact .inr (.inl ⟨ht, hb, by simp [Regs.bitEdge, Regs.atBoundary, ht, hb]⟩)
    · have h9 : r.bitpos = 9 := by ext; have := r.bitpos.isLt; simp; omega
      by_cases hi : r.idx.val < 4
      · exact .inr (.inr (.inl ⟨ht, h9, hi, by simp [Regs.bitEdge, Regs.atBoundary, ht, hb, hi]⟩))
      · have h4 : r.idx = 4 := by ext; have := r.idx.isLt; simp; omega
        exact .inr (.inr (.inr ⟨ht, h9, h4, by simp [Regs.bitEdge, Regs.atBoundary, ht, hb, hi]⟩))

/-- Everything the edge of phase GAP can do (R144, R148 to R150). -/
theorem Regs.gapEdge_cases (r : Regs) (bt : Nat) (c : Bool) :
    (r.tick < bt - 1 ∧ r.gapEdge bt c = r.countTick) ∨
    (¬ r.tick < bt - 1 ∧ r.gapcnt.val < 49 ∧ r.gapEdge bt c = r.countGap) ∨
    (¬ r.tick < bt - 1 ∧ r.gapcnt.val = 49 ∧ c = true ∧ r.gapEdge bt c = r.nextByte) ∨
    (¬ r.tick < bt - 1 ∧ r.gapcnt.val = 49 ∧ c = false ∧ r.gapEdge bt c = r.failWrite) := by
  by_cases ht : r.tick < bt - 1
  · exact .inl ⟨ht, by simp [Regs.gapEdge, Regs.atBoundary, ht]⟩
  · by_cases hg : r.gapcnt.val < 49
    · exact .inr (.inl ⟨ht, hg, by simp [Regs.gapEdge, Regs.atBoundary, ht, hg]⟩)
    · have h49 : r.gapcnt.val = 49 := by have h : r.gapcnt.val < 50 := r.gapcnt.isLt; omega
      cases c
      · exact .inr (.inr (.inr ⟨ht, h49, rfl, by simp [Regs.gapEdge, Regs.atBoundary, ht, h49]⟩))
      · exact .inr (.inr (.inl ⟨ht, h49, rfl, by simp [Regs.gapEdge, Regs.atBoundary, ht, h49]⟩))

/-! ### `exec` and `step` -/

/-- Every instruction is the edge with its request presented, and answers a next state. -/
theorem exec_eq (i : Instr) (s : State) : exec i s = .next (s.sendEdge i.mode i.bright i.speed) := by
  cases i <;> rfl

/-- The decoder on a word whose mode code is a mode. -/
theorem decode_of_mode (w : ReqWord) (m : Mode) (h : modeOfCode (modeField w) = some m) :
    decode w = .ok (instrOf m (brightField w) (speedField w)) := by
  simp [decode, h]

/-- The decoder on a word whose mode code is none. -/
theorem decode_of_none (w : ReqWord) (h : modeOfCode (modeField w) = none) :
    decode w = .error (.invalidMode (modeField w)) := by
  simp [decode, h]

@[simp] theorem instrOf_mode (m : Mode) (b s : Code) : (instrOf m b s).mode = m := by cases m <;> rfl
@[simp] theorem instrOf_bright (m : Mode) (b s : Code) : (instrOf m b s).bright = b := by cases m <;> rfl
@[simp] theorem instrOf_speed (m : Mode) (b s : Code) : (instrOf m b s).speed = s := by cases m <;> rfl

/-- The registers one legal edge leaves: every case of a step's answer. -/
inductive EdgeCase (s : State) : Regs → Prop
  /-- A reset edge (R210). -/
  | reset (h : s.pins.rst = true) : EdgeCase s (Regs.afterReset s.resetDraw)
  /-- IDLE with no request (R142). -/
  | quiet (hr : s.pins.rst = false) (hp : s.core.phase = .idle) (hv : s.pins.reqValid = false) : EdgeCase s s.core.quiet
  /-- An accepted request whose mode code is none (R182). -/
  | reject (hr : s.pins.rst = false) (hp : s.core.phase = .idle) (hv : s.pins.reqValid = true)
      (hm : modeOfCode (modeField s.pins.reqWord) = none) : EdgeCase s (s.core.raise .errConfig 0)
  /-- An accepted request whose mode code is a mode (R110). -/
  | accept (hr : s.pins.rst = false) (hp : s.core.phase = .idle) (hv : s.pins.reqValid = true) (m : Mode)
      (hm : modeOfCode (modeField s.pins.reqWord) = some m) :
      EdgeCase s (s.core.accept m (brightField s.pins.reqWord) (speedField s.pins.reqWord) s.pins.chanOk)
  /-- An edge of phase BIT. -/
  | bit (hr : s.pins.rst = false) (hp : s.core.phase = .bit) : EdgeCase s (s.core.bitEdge s.bitTicks)
  /-- An edge of phase GAP. -/
  | gap (hr : s.pins.rst = false) (hp : s.core.phase = .gap) : EdgeCase s (s.core.gapEdge s.bitTicks s.pins.chanOk)

/-- One legal edge is one of the cases of `EdgeCase`. -/
theorem stepLegal_cases (s : State) :
    ∃ c, EdgeCase s c ∧ stepLegal s = .next (s.withCore c).advance := by
  by_cases hr : s.pins.rst = true
  · refine ⟨_, .reset hr, ?_⟩
    simp [stepLegal, State.fetch, Regs.reqReady, hr, State.plainEdge, Regs.plainEdge]
  · have hr : s.pins.rst = false := by simpa using hr
    cases hp : s.core.phase
    · by_cases hv : s.pins.reqValid = true
      · have hf : s.fetch = some s.pins.reqWord := by simp [State.fetch, Regs.reqReady, hp, hr, hv]
        cases hm : modeOfCode (modeField s.pins.reqWord) with
        | none => exact ⟨_, .reject hr hp hv hm, by simp [stepLegal, hf, decode_of_none _ hm, State.rejectEdge]⟩
        | some m =>
          refine ⟨_, .accept hr hp hv m hm, ?_⟩
          simp [stepLegal, hf, decode_of_mode _ _ hm, exec_eq, advanceOutcome, State.sendEdge, Regs.reqReady, hp, hr]
      · have hv : s.pins.reqValid = false := by simpa using hv
        refine ⟨_, .quiet hr hp hv, ?_⟩
        simp [stepLegal, State.fetch, hv, State.plainEdge, Regs.plainEdge, hr, Regs.sequence, hp]
    · refine ⟨_, .bit hr hp, ?_⟩
      simp [stepLegal, State.fetch, Regs.reqReady, hp, State.plainEdge, Regs.plainEdge, hr, Regs.sequence]
    · refine ⟨_, .gap hr hp, ?_⟩
      simp [stepLegal, State.fetch, Regs.reqReady, hp, State.plainEdge, Regs.plainEdge, hr, Regs.sequence]

/-- If a step answers a next state, the state is legal and one of the cases of `EdgeCase` gives the registers. -/
theorem step_cases {s t : State} (h : step s = .next t) :
    s.core.legal s.bitTicks = true ∧ ∃ c, EdgeCase s c ∧ t = (s.withCore c).advance := by
  by_cases hl : s.core.legal s.bitTicks = true
  · obtain ⟨c, hc, he⟩ := stepLegal_cases s
    simp only [step, hl, if_true, he] at h
    exact ⟨hl, c, hc, by injection h with h; exact h.symm⟩
  · simp [step, hl] at h

/-- A legal state has a step, and one of the cases of `EdgeCase` gives its registers. -/
theorem step_of_legal {s : State} (h : s.core.legal s.bitTicks = true) :
    ∃ c, EdgeCase s c ∧ step s = .next (s.withCore c).advance := by
  obtain ⟨c, hc, he⟩ := stepLegal_cases s
  exact ⟨c, hc, by simp [step, h, he]⟩

/-- What the legal set says of a state, in propositions: where the phase is not IDLE, the clauses on the counters give R40's
last clause but for the first character. -/
theorem Regs.legal_iff (r : Regs) (bt : Nat) :
    r.legal bt = true ↔ r.tick < bt ∧
      (r.phase = .gap → r.idx.val ≤ 3 ∧ r.sentCount.val = r.idx.val + 1) ∧
      (r.phase = .bit → r.sentCount.val = r.idx.val) ∧
      (r.phase = .idle → r.status = .errTx → 1 ≤ r.sentCount.val ∧ r.sentCount.val ≤ 4) := by
  have hi := r.idx.isLt
  cases hp : r.phase <;>
    simp only [Regs.legal, Regs.inRange, Regs.errTxCounted, Regs.inFirstCharacter, hp, Fin.ext_iff, Bool.and_eq_true,
      Bool.or_eq_true, decide_eq_true_eq, reduceCtorEq, false_implies, true_implies, true_and, and_true, false_and,
      or_false, Fin.val_zero] <;>
    first
      | tauto
      | (constructor <;> (intro h; by_cases hs : r.status = .errTx <;> simp_all <;> omega))

/-- R40 as written holds in every state that has a step but one kind: the first character of a transaction that follows an
ERR_TX, where R37 keeps `status` and R38 sets `sent_count` to 0 (log entry 6). -/
theorem Regs.r40_iff (r : Regs) (bt : Nat) :
    r.r40 bt = true ↔ r.legal bt = true ∧ ¬ (r.phase = .bit ∧ r.idx = 0 ∧ r.status = .errTx) := by
  simp only [Regs.r40, Regs.legal, Regs.inRange, Regs.errTxCounted, Regs.inFirstCharacter, Bool.and_eq_true, Bool.or_eq_true,
    decide_eq_true_eq]
  constructor
  · rintro ⟨h, hc⟩
    refine ⟨⟨h, .inl hc⟩, ?_⟩
    rintro ⟨hp, hi, hs⟩
    simp [hp, hi] at h
    have := hc hs
    omega
  · rintro ⟨⟨h, hc | ⟨hp, hi⟩⟩, hn⟩
    · exact ⟨h, hc⟩
    · exact ⟨h, fun hs => absurd ⟨hp, hi, hs⟩ hn⟩

/-- R152 itself leaves R40 as written: where a request is accepted after an ERR_TX, the next state that its text gives has
`status` ERR_TX and `sent_count` 0 (R37, R38, R188; log entry 6). -/
theorem assembledStep_leaves_r40 (bt draw : Nat) (r : Regs) (p : Pins) (hr : p.rst = false) (hp : r.phase = .idle)
    (hs : r.status = .errTx) (hv : p.reqValid = true) (hw : validWord p.reqWord = true) (hc : p.chanOk = true) :
    (assembledStep bt draw r p).r40 bt = false := by
  simp [assembledStep, assembledIdle, assembledStart, hr, hp, hs, hv, hw, hc, Regs.r40, Regs.errTxCounted]

/-- The step of a reset edge (R210). -/
theorem step_of_reset {s : State} (hl : Safety.Legal s) (hr : s.pins.rst = true) :
    step s = .next (s.withCore (Regs.afterReset s.resetDraw)).advance := by
  obtain ⟨c, hc, h⟩ := step_of_legal hl
  rw [h]
  cases hc <;> simp_all

/-- The step in IDLE with no request (R142). -/
theorem step_of_quiet {s : State} (hl : Safety.Legal s) (hr : s.pins.rst = false) (hp : s.core.phase = .idle)
    (hv : s.pins.reqValid = false) : step s = .next (s.withCore s.core.quiet).advance := by
  obtain ⟨c, hc, h⟩ := step_of_legal hl
  rw [h]
  cases hc <;> simp_all

/-- The step in phase BIT (R144 to R147). -/
theorem step_of_bit {s : State} (hl : Safety.Legal s) (hr : s.pins.rst = false) (hp : s.core.phase = .bit) :
    step s = .next (s.withCore (s.core.bitEdge s.bitTicks)).advance := by
  obtain ⟨c, hc, h⟩ := step_of_legal hl
  rw [h]
  cases hc <;> simp_all

/-- The step in phase GAP (R144, R148 to R150). -/
theorem step_of_gap {s : State} (hl : Safety.Legal s) (hr : s.pins.rst = false) (hp : s.core.phase = .gap) :
    step s = .next (s.withCore (s.core.gapEdge s.bitTicks s.pins.chanOk)).advance := by
  obtain ⟨c, hc, h⟩ := step_of_legal hl
  rw [h]
  cases hc <;> simp_all

end Sys2Proof.Machine
end

