-- ==== Sys2Proof/Laws/PerInstr.lean ====
section
/-! SUPPORT. The family `Encoding`: the fields of an instruction's request word (R81, R88), one lemma for each
constructor. -/

namespace Sys2Proof.Laws.Encoding

open Sys2Proof.Machine

/-- The word of an instruction carries its mode code and its two operands in their fields, and is valid exactly when the
instruction is well formed (R81, R88, R104). -/
def Statement (i : Instr) : Prop :=
  modeField (encode i) = modeCode i.mode ∧ brightField (encode i) = i.bright ∧ speedField (encode i) = i.speed ∧
    validWord (encode i) = i.wellFormed

theorem sendOff (b s : Code) : Statement (.sendOff b s) := by
  revert b s; unfold Statement; decide

theorem sendAuto (b s : Code) : Statement (.sendAuto b s) := by
  revert b s; unfold Statement; decide

theorem sendRainbow (b s : Code) : Statement (.sendRainbow b s) := by
  revert b s; unfold Statement; decide

theorem sendBreathing (b s : Code) : Statement (.sendBreathing b s) := by
  revert b s; unfold Statement; decide

theorem sendCycle (b s : Code) : Statement (.sendCycle b s) := by
  revert b s; unfold Statement; decide

end Sys2Proof.Laws.Encoding
end

