-- ==== Sys2Proof/Laws/Run.lean ====
section
/-! SUPPORT. Runs: how steps compose, and which input levels each edge of a run samples. -/

namespace Sys2Proof.Machine

open Sys2Proof.Safety

theorem reaches_zero (s : State) : Reaches 0 s s := rfl

/-- The host's run, one step at a time. -/
theorem core_run_succ (M : Host.Core) (k : Nat) (s : M.State) : M.run (k + 1) s =
    match M.step s with
    | .next t => M.run k t
    | .fault r => .fault r
    | .refused r => .refused r := rfl

/-- The first step of a run. -/
theorem reaches_succ_iff (k : Nat) (s u : State) : Reaches (k + 1) s u ↔ ∃ t, step s = .next t ∧ Reaches k t u := by
  have h := core_run_succ Sys2Proof.core k s
  have hc : Sys2Proof.core.step s = step s := rfl
  unfold Reaches
  rw [hc] at h
  rw [h]
  cases hs : step s with
  | next t => simp
  | fault r => cases r
  | refused r => simp

theorem reaches_one_iff (s t : State) : Reaches 1 s t ↔ step s = .next t := by
  rw [reaches_succ_iff]
  constructor
  · rintro ⟨u, hu, h⟩
    have h : Host.Outcome.next u = .next t := h
    injection h with h
    rw [hu, h]
  · intro h
    exact ⟨t, h, rfl⟩

/-- A run of `a + b` steps is a run of `a` and then one of `b`. -/
theorem reaches_add_iff (a b : Nat) (s u : State) : Reaches (a + b) s u ↔ ∃ t, Reaches a s t ∧ Reaches b t u := by
  induction a generalizing s with
  | zero =>
    rw [Nat.zero_add]
    constructor
    · exact fun h => ⟨s, rfl, h⟩
    · rintro ⟨t, ht, h⟩
      have ht : Host.Outcome.next s = .next t := ht
      injection ht with ht
      exact ht ▸ h
  | succ a ih =>
    rw [Nat.succ_add, reaches_succ_iff]
    constructor
    · rintro ⟨v, hv, h⟩
      obtain ⟨t, ht, hu⟩ := (ih v).mp h
      exact ⟨t, (reaches_succ_iff a s t).mpr ⟨v, hv, ht⟩, hu⟩
    · rintro ⟨t, ht, hu⟩
      obtain ⟨v, hv, ht⟩ := (reaches_succ_iff a s t).mp ht
      exact ⟨v, hv, (ih v).mpr ⟨t, ht, hu⟩⟩

/-- A run ends in one state. -/
theorem reaches_unique {k : Nat} {s t u : State} (ht : Reaches k s t) (hu : Reaches k s u) : t = u := by
  have h : Host.Outcome.next t = .next u := ht.symm.trans hu
  injection h

@[simp] theorem pinsFrom_zero (p : Pins) (ps : List Pins) : pinsFrom p ps 0 = p := by cases ps <;> rfl
@[simp] theorem pinsFrom_nil (p : Pins) (n : Nat) : pinsFrom p [] n = p := by cases n <;> rfl
@[simp] theorem pinsFrom_cons (p q : Pins) (qs : List Pins) (n : Nat) : pinsFrom p (q :: qs) (n + 1) = pinsFrom q qs n := rfl

/-- The levels of a cycle are the current ones or one of those to come. -/
theorem pinsFrom_mem (p : Pins) (ps : List Pins) (n : Nat) : pinsFrom p ps n = p ∨ pinsFrom p ps n ∈ ps := by
  induction ps generalizing p n with
  | nil => simp
  | cons q qs ih =>
    cases n with
    | zero => simp
    | succ n => rcases ih q n with h | h <;> simp [h]

@[simp] theorem State.pinsAt_zero (s : State) : s.pinsAt 0 = s.pins := pinsFrom_zero _ _

/-- The input levels seen from a state with other registers are the same. -/
@[simp] theorem State.withCore_pinsAt (s : State) (c : Regs) (n : Nat) : (s.withCore c).pinsAt n = s.pinsAt n := rfl

/-- One cycle later the input levels are those of one cycle on. -/
@[simp] theorem State.advance_pinsAt (s : State) (n : Nat) : s.advance.pinsAt n = s.pinsAt (n + 1) := by
  cases h : s.stimulus with
  | nil => simp [State.pinsAt, State.nextPins, h]
  | cons p ps => simp [State.pinsAt, State.nextPins, h]

/-- A step samples the current levels and moves to the next. -/
theorem step_pinsAt {s t : State} (h : step s = .next t) (n : Nat) : t.pinsAt n = s.pinsAt (n + 1) := by
  obtain ⟨-, c, -, rfl⟩ := step_cases h
  simp

/-- After `k` steps the levels are those of `k` cycles on. -/
theorem reaches_pinsAt {k : Nat} {s t : State} (h : Reaches k s t) (n : Nat) : t.pinsAt n = s.pinsAt (k + n) := by
  induction k generalizing s with
  | zero =>
    have h : Host.Outcome.next s = .next t := h
    injection h with h
    rw [h, Nat.zero_add]
  | succ k ih =>
    obtain ⟨u, hu, h⟩ := (reaches_succ_iff k s t).mp h
    rw [ih h, step_pinsAt hu]
    congr 1
    omega

/-- No step changes `BIT_TICKS`. -/
theorem step_bitTicks {s t : State} (h : step s = .next t) : t.bitTicks = s.bitTicks := by
  obtain ⟨-, c, -, rfl⟩ := step_cases h
  rfl

/-! ### The host -/

@[simp] theorem State.driven_core (s : State) (p : Pins) : (s.driven p).core = s.core := rfl
@[simp] theorem State.driven_pins (s : State) (p : Pins) : (s.driven p).pins = p := rfl
@[simp] theorem State.driven_stimulus (s : State) (p : Pins) : (s.driven p).stimulus = [] := rfl
@[simp] theorem State.driven_bitTicks (s : State) (p : Pins) : (s.driven p).bitTicks = s.bitTicks := rfl
@[simp] theorem State.driven_resetDraw (s : State) (p : Pins) : (s.driven p).resetDraw = s.resetDraw := rfl

/-- Everything the host can drive in a cycle (R92), where `ok` is the level that the last `CHAN` carried out gave: nothing
presented after the last directive, a reset, a request, or nothing presented while it waits. -/
theorem hostCycle_cases (ds : List Directive) (r : Regs) (p : Pins) : ∃ ok,
    hostCycle ds r p = ({ p with rst := false, reqValid := false, chanOk := ok }, []) ∨
    (∃ n rest, hostCycle ds r p = ({ p with rst := true, reqValid := false, chanOk := ok }, .reset (n + 1) :: rest)) ∨
    (∃ w rest, hostCycle ds r p =
      ({ p with rst := false, reqValid := true, reqWord := w, chanOk := ok }, .req w :: rest)) ∨
    (∃ n rest, hostCycle ds r p = ({ p with rst := false, reqValid := false, chanOk := ok }, .wait (n + 1) :: rest)) ∨
    (∃ rest, r.doneR = false ∧
      hostCycle ds r p = ({ p with rst := false, reqValid := false, chanOk := ok }, .waitDone :: rest)) := by
  induction ds generalizing p with
  | nil => exact ⟨p.chanOk, .inl rfl⟩
  | cons d rest ih =>
    cases d with
    | reset n =>
      cases n with
      | zero => exact ih p
      | succ n => exact ⟨p.chanOk, .inr (.inl ⟨n, rest, rfl⟩)⟩
    | chan ok => exact ih { p with chanOk := ok }
    | req w => exact ⟨p.chanOk, .inr (.inr (.inl ⟨w, rest, rfl⟩))⟩
    | wait n =>
      cases n with
      | zero => exact ih p
      | succ n => exact ⟨p.chanOk, .inr (.inr (.inr (.inl ⟨n, rest, rfl⟩)))⟩
    | waitDone =>
      cases h : r.doneR with
      | true => simpa [hostCycle, h] using ih p
      | false => exact ⟨p.chanOk, .inr (.inr (.inr (.inr ⟨rest, rfl, by simp [hostCycle, h, Pins.unpresented]⟩)))⟩

/-- One cycle of a host's run. -/
theorem runHost_succ (b : Bool) (k : Nat) (ds : List Directive) (s : State) : runHost b (k + 1) ds s =
    if runEnded b (hostCycle ds s.core s.pins).2 s.core then .next (s.driven (hostCycle ds s.core s.pins).1)
    else match step (s.driven (hostCycle ds s.core s.pins).1) with
      | .next t => runHost b k (directivesAfterEdge (hostCycle ds s.core s.pins).2 s.core) t
      | .fault f => .fault f
      | .refused f => .refused f := rfl

end Sys2Proof.Machine
end

