-- ==== Sys2Proof/Tests/Slice0.lean ====
section
/-! SUPPORT. The model's own tests: expected values from the spec's tables and vectors (`95_test_vectors.md`), named beside
each, and for every statement with hypotheses a concrete state that meets them. -/

namespace Sys2Proof.Tests

open Sys2Proof.Machine Sys2Proof.Safety

/-! ### Helpers -/

/-- A register set of the transaction of `SEND.RAINBOW 5, 1` (frame FA 01 01 05 01, S5). -/
def regsAt (ph : Phase) (i : Fin 5) (b : Fin 10) (tick : Nat) (g : Fin Config.gapBits) (n : Fin 6) : Regs where
  phase := ph
  idx := i
  bitpos := b
  tick := tick
  gapcnt := g
  fbMode := 0x01
  fbBright := 0x01
  fbSpeed := 0x05
  acc := 0x01
  status := .ok
  sentCount := n
  doneR := false

/-- Input levels with no reset. -/
def levels (v : Bool) (w : ReqWord) (c : Bool) : Pins where
  rst := false
  reqValid := v
  reqWord := w
  chanOk := c

/-- Input levels with reset. -/
def resetLevels : Pins where
  rst := true
  reqValid := true
  reqWord := 0x0D8
  chanOk := true

/-- A state with these registers and levels at the given `BIT_TICKS`. -/
def stateOf (r : Regs) (p : Pins) (bt : Nat) : State where
  core := r
  pins := p
  stimulus := []
  bitTicks := bt
  resetDraw := 0

/-- An idle state with the request word `w` presented. -/
def presented (w : ReqWord) (c : Bool) : State := stateOf (regsAt .idle 4 9 0 49 5) (levels true w c) 1

/-- The registers after an outcome, where there are any. -/
def coreOf (o : Host.Outcome State Fault Refusal) : Option Regs :=
  match o with
  | .next s => some s.core
  | .fault _ => none
  | .refused _ => none

/-- What a request leaves: phase, outcome, byte count, `done`, and the frame registers. -/
def reportOf (o : Host.Outcome State Fault Refusal) : Option (Phase × Status × Nat × Bool × List Byte) :=
  (coreOf o).map fun r => (r.phase, r.status, r.sentCount.val, r.doneR, frameBytes r.frame)

/-! ### Well-formedness: each check refuses an ill-formed term (R83, R90) -/

theorem test_wellFormed_accepts_levels : (Instr.sendOff 1 5).wellFormed = true := by decide
theorem test_wellFormed_refuses_bright_0 : (Instr.sendOff 0 3).wellFormed = false := by decide
theorem test_wellFormed_refuses_bright_6 : (Instr.sendAuto 6 3).wellFormed = false := by decide
theorem test_wellFormed_refuses_speed_0 : (Instr.sendCycle 3 0).wellFormed = false := by decide
theorem test_wellFormed_refuses_speed_7 : (Instr.sendRainbow 3 7).wellFormed = false := by decide

/-! ### Decoding: words written out as `sss bbb mmm` (R81, R88) -/

theorem test_decode_off : decode 0b011_011_000 = .ok (.sendOff 3 3) := by rfl
theorem test_decode_auto : decode 0b010_101_001 = .ok (.sendAuto 5 2) := by rfl
theorem test_decode_rainbow : decode 0b001_101_010 = .ok (.sendRainbow 5 1) := by rfl
theorem test_decode_breathing : decode 0b100_010_011 = .ok (.sendBreathing 2 4) := by rfl
theorem test_decode_cycle : decode 0b101_001_100 = .ok (.sendCycle 1 5) := by rfl
theorem test_decode_invalid_level : decode 0b110_000_000 = .ok (.sendOff 0 6) := by rfl
theorem test_decode_mode_5 : decode 0b011_011_101 = .error (.invalidMode 5) := by rfl
theorem test_decode_mode_7 : decode 0b111_111_111 = .error (.invalidMode 7) := by rfl
theorem test_decodeBits_tooWide : decodeBits 0x200 = .error (.tooWide 0x200) := by rfl
theorem test_decodeTableWord : decodeTableWord 16 0x16C = some (.sendCycle 5 5) := by decide
theorem test_encode_rainbow : encode (.sendRainbow 5 1) = 0x06A := by decide

/-! ### Tables, checksum, serializer (V3, V5) -/

theorem test_checksum_largest_sum : checksum 0x05 0x05 0x05 = 0x09 := by decide
theorem test_checksum_smallest_sum : checksum 0x01 0x01 0x01 = 0xFD := by decide
theorem test_char_FD :
    (List.finRange 10).map (charSlot 0xFD) = [false, true, false, true, true, true, true, true, true, true] := by decide
theorem test_char_00 :
    (List.finRange 10).map (charSlot 0x00) =
      [false, false, false, false, false, false, false, false, false, true] := by decide

/-! ### One accepting edge of each instruction (V8 for the frames, V4 for the outcomes) -/

theorem test_off_starts : reportOf (exec (.sendOff 1 2) (presented 0 true)) =
    some (.bit, .ok, 0, false, [0xFA, 0x04, 0x05, 0x04, 0x07]) := by decide
theorem test_off_bright_0 : reportOf (exec (.sendOff 0 3) (presented 0 false)) =
    some (.idle, .errConfig, 0, true, [0xFA, 0x01, 0x01, 0x05, 0x01]) := by decide
theorem test_auto_starts : reportOf (exec (.sendAuto 5 2) (presented 0 true)) =
    some (.bit, .ok, 0, false, [0xFA, 0x05, 0x01, 0x04, 0x04]) := by decide
theorem test_auto_channel_down : reportOf (exec (.sendAuto 3 3) (presented 0 false)) =
    some (.idle, .errPort, 0, true, [0xFA, 0x01, 0x01, 0x05, 0x01]) := by decide
theorem test_rainbow_starts : reportOf (exec (.sendRainbow 3 5) (presented 0 true)) =
    some (.bit, .ok, 0, false, [0xFA, 0x01, 0x03, 0x01, 0xFF]) := by decide
theorem test_rainbow_speed_6 : reportOf (exec (.sendRainbow 3 6) (presented 0 true)) =
    some (.idle, .errConfig, 0, true, [0xFA, 0x01, 0x01, 0x05, 0x01]) := by decide
theorem test_breathing_starts : reportOf (exec (.sendBreathing 2 4) (presented 0 true)) =
    some (.bit, .ok, 0, false, [0xFA, 0x02, 0x04, 0x02, 0x02]) := by decide
theorem test_cycle_starts : reportOf (exec (.sendCycle 4 5) (presented 0 true)) =
    some (.bit, .ok, 0, false, [0xFA, 0x03, 0x02, 0x01, 0x00]) := by decide
theorem test_step_mode_6_channel_down : reportOf (step (presented 0x0DE false)) =
    some (.idle, .errConfig, 0, true, [0xFA, 0x01, 0x01, 0x05, 0x01]) := by decide
theorem test_first_step_after_reset : (coreOf (step (State.reset.withFetchWord 16 0x06A))).map Regs.phase = some .bit := by
  decide
theorem test_reset_in_a_character :
    (coreOf (step (stateOf (regsAt .bit 0 5 0 0 0) resetLevels 1))).map
      (fun r => (r.phase, r.status, r.sentCount.val, r.txd)) = some (.idle, .none, 0, true) := by decide

/-! ### The assembler and the host (R90 to R92, R213) -/

theorem test_text_upper : assembleText
    ['S', 'E', 'N', 'D', '.', 'R', 'A', 'I', 'N', 'B', 'O', 'W', ' ', '5', ',', ' ', '1'] = some 0x06A := by decide
theorem test_text_default : assembleText ['S', 'E', 'N', 'D', '.', 'o', 'f', 'f'] = some 0x0D8 := by decide
theorem test_text_bright_refused : assembleText ['S', 'E', 'N', 'D', '.', 'O', 'F', 'F', ' ', '6'] = none := by decide
theorem test_host_two_edges :
    (reportOf (runFromPowerUp 1 2 [.reset 1, .chan false, .req 0x1FF, .waitDone])).map (fun x => (x.1, x.2.1, x.2.2.2.1)) =
      some (.idle, .errConfig, true) := by decide

/-- What a host's run ends with: `rst`, `req_valid`, `chan_ok`, `done`. -/
def portsOf (o : Host.Outcome State Fault Refusal) : Option (Bool × Bool × Bool × Bool) :=
  match o with
  | .next s => some (s.pins.rst, s.pins.reqValid, s.pins.chanOk, s.core.doneR)
  | .fault _ => none
  | .refused _ => none

theorem test_host_reset_ends_low : portsOf (runFromPowerUp 1 9 [.reset 2]) = some (false, false, true, false) := by decide
theorem test_host_request_ends_low :
    portsOf (runFromPowerUp 1 9 [.reset 1, .req 0x1FF, .chan false]) = some (false, false, false, true) := by decide
theorem test_host_run_completes :
    portsOf (runProgram 9 [] (stateOf (regsAt .bit 4 8 0 0 4) (levels true 0x048 false) 1)) =
      some (false, false, false, true) := by decide
theorem test_host_last_completion :
    portsOf (runToLastCompletion 9 [.reset 1, .req 0x1FF, .wait 3] State.reset) = some (false, false, true, true) ∧
    portsOf (runProgram 9 [.reset 1, .req 0x1FF, .wait 3] State.reset) = some (false, false, true, false) := by decide

/-! ### States that meet the hypotheses of the statements -/

theorem test_meets_DecodeAndEncodeAgree : decode 0x1C7 = .error (.invalidMode 7) ∧ decode 0x1FC = .ok (.sendCycle 7 7) ∧
    (Instr.sendCycle 5 5).wellFormed = true := ⟨rfl, rfl, by decide⟩
theorem test_meets_LevelTableIsSixMinusLevel : levelTable 1 = some 0x05 ∧ levelTable 5 = some 0x01 ∧ levelTable 6 = none := by
  decide
theorem test_meets_ChecksumClosedFormAndRange :
    frameOf .auto 1 1 = some ⟨0x05, 0x05, 0x05, 0x09⟩ ∧ frameOf .rainbow 5 5 = some ⟨0x01, 0x01, 0x01, 0xFD⟩ := by decide
theorem test_meets_BeginStandsOnlyAtOffsetZero : encodeRequest 0x16A = some [0xFA, 0x01, 0x01, 0x01, 0xFD] := by decide
theorem test_meets_CharacterSlots : charSlot 0x01 1 = true ∧ charSlot 0x80 8 = true ∧
    (regsAt .gap 0 9 0 0 1).phase ≠ .bit := by decide
theorem test_meets_LineShowsTheSelectedByte : (regsAt .bit 4 0 0 0 4).phase = .bit ∧ (regsAt .idle 4 0 0 0 5).phase = .idle ∧
    (regsAt .gap 3 0 0 0 4).phase = .gap := by decide
theorem test_meets_OutputPorts : (presented 0 true).core = (stateOf (regsAt .idle 4 9 0 49 5) resetLevels 1).core := rfl
theorem test_meets_ResetStateIsLegal : Legal (State.resetAt 1) ∧ Legal (State.resetAt 3) := ⟨rfl, rfl⟩
theorem test_meets_reset_edge : Legal (stateOf (regsAt .gap 3 9 2 49 4) resetLevels 3) ∧
    (stateOf (regsAt .gap 3 9 2 49 4) resetLevels 3).pins.rst = true := ⟨rfl, rfl⟩
theorem test_meets_FurtherResetEdges :
    ∃ t, step (stateOf (regsAt .bit 2 9 0 0 2) resetLevels 1) = .next t ∧ t.pins.rst = true := ⟨_, rfl, rfl⟩
theorem test_meets_IdleFrameRegistersAreUnobservable :
    Legal State.reset ∧ State.reset.core.phase = .idle ∧
      AgreeButFrame State.reset.core { Regs.reset with fbMode := 0x55, acc := 0xAA } := ⟨rfl, rfl, rfl⟩
theorem test_meets_accepted_valid : Legal (presented 0x06A true) ∧ (presented 0x06A true).core.phase = .idle ∧
    (presented 0x06A true).accepting = true ∧ (presented 0x06A true).pins.chanOk = true ∧
    decode (presented 0x06A true).pins.reqWord = .ok (.sendRainbow 5 1) ∧
    encodeRequest (presented 0x06A true).pins.reqWord = some (frameBytes ⟨0x01, 0x01, 0x05, 0x01⟩) :=
  ⟨rfl, rfl, rfl, rfl, rfl, rfl⟩
theorem test_meets_accepted_channel_down : Legal (presented 0x0D9 false) ∧ (presented 0x0D9 false).accepting = true ∧
    validWord (presented 0x0D9 false).pins.reqWord = true ∧ (presented 0x0D9 false).pins.chanOk = false :=
  ⟨rfl, rfl, rfl, rfl⟩
theorem test_meets_accepted_invalid : Legal (presented 0x0C0 true) ∧ (presented 0x0C0 true).accepting = true ∧
    validWord (presented 0x0C0 true).pins.reqWord = false ∧ validWord (presented 0x0DD false).pins.reqWord = false :=
  ⟨rfl, rfl, rfl, rfl⟩
theorem test_meets_send_levels : levelValid 1 = true ∧ levelValid 5 = true ∧ levelValid 0 = false ∧ levelValid 6 = false ∧
    (presented 0 true).core.phase = .idle ∧ (presented 0 true).pins.rst = false ∧ (presented 0 true).pins.chanOk = true := by
  decide
theorem test_meets_send_exceptions : (Instr.sendOff 6 1).wellFormed = false ∧ (Instr.sendOff 1 5).wellFormed = true ∧
    (presented 0 false).pins.chanOk = false := by decide
theorem test_meets_SendLeavesTheRestUnchanged :
    (∃ t, exec (.sendAuto 1 1) (presented 0 true) = .next t) ∧ (∃ t, exec (.sendAuto 0 1) (presented 0 true) = .next t) ∧
    (∃ t, exec (.sendAuto 1 1) (presented 0 false) = .next t) := ⟨⟨_, rfl⟩, ⟨_, rfl⟩, ⟨_, rfl⟩⟩
theorem test_meets_busy : Legal (stateOf (regsAt .bit 4 9 0 0 4) (levels true 0x048 true) 1) ∧
    Legal (stateOf (regsAt .gap 0 9 1 0 1) (levels true 0x048 false) 2) := ⟨rfl, rfl⟩
theorem test_meets_IdleEdgeChangesNothing : Legal (stateOf (regsAt .idle 4 9 0 49 5) (levels false 0 true) 1) := rfl
theorem test_meets_BaudCounter : Legal (stateOf (regsAt .bit 0 0 1 0 0) (levels false 0 true) 3) ∧ 1 < 3 - 1 ∧
    Legal (stateOf (regsAt .bit 0 0 2 0 0) (levels false 0 true) 3) ∧ ¬ 2 < 3 - 1 ∧
    Legal (stateOf (regsAt .gap 0 0 0 0 1) (levels false 0 true) 1) := ⟨rfl, by decide, rfl, by decide, rfl⟩
theorem test_meets_NextSlotOfTheCharacter : Legal (stateOf (regsAt .bit 0 0 2 0 0) (levels false 0 true) 3) ∧
    Legal (stateOf (regsAt .bit 0 8 2 0 0) (levels false 0 false) 3) := ⟨rfl, rfl⟩
theorem test_meets_StopBitStartsTheGap : Legal (stateOf (regsAt .bit 0 9 2 0 0) (levels false 0 true) 3) ∧
    Legal (stateOf (regsAt .bit 3 9 2 0 3) (levels false 0 true) 3) := ⟨rfl, rfl⟩
theorem test_meets_ChecksumStopBitCompletes : Legal (stateOf (regsAt .bit 4 9 2 0 4) (levels false 0 false) 3) := rfl
theorem test_meets_GapCountsBitPeriods : Legal (stateOf (regsAt .gap 3 9 2 0 4) (levels false 0 true) 3) ∧
    Legal (stateOf (regsAt .gap 3 9 2 48 4) (levels false 0 false) 3) := ⟨rfl, rfl⟩
theorem test_meets_gap_end : Legal (stateOf (regsAt .gap 0 9 2 49 1) (levels false 0 true) 3) ∧
    Legal (stateOf (regsAt .gap 3 9 2 49 4) (levels false 0 false) 3) := ⟨rfl, rfl⟩
theorem test_meets_IllegalValueHasNoStep : ¬ Legal (stateOf (regsAt .gap 4 9 0 0 5) (levels false 0 true) 1) := by
  unfold Legal
  decide
theorem test_meets_every_step : Legal State.reset ∧ (∃ t, step State.reset = .next t) ∧
    ∃ t, step (stateOf (regsAt .bit 0 9 0 0 0) (levels false 0 true) 1) = .next t := ⟨rfl, ⟨_, rfl⟩, ⟨_, rfl⟩⟩
theorem test_meets_OpenTransactionHoldsAFrame :
    FrameSound (stateOf (regsAt .bit 2 4 0 0 2) (levels false 0 true) 1) ∧
    ∃ t, step (stateOf (regsAt .bit 2 4 0 0 2) (levels false 0 true) 1) = .next t ∧ t.core.phase ≠ .idle :=
  ⟨fun _ => ⟨0x06A, rfl, rfl⟩, _, rfl, by decide⟩
theorem test_meets_ReportStaysSound : ReportSound (regsAt .idle 4 9 0 49 5) := fun _ => rfl
theorem test_meets_FrameIsImmutableInATransaction :
    ∃ t, step (presented 0x048 true) = .next t ∧ t.core.frame ≠ (presented 0x048 true).core.frame := ⟨_, rfl, by decide⟩
theorem test_meets_BytesGoInOffsetOrder :
    ∃ t, step (stateOf (regsAt .gap 0 9 0 49 1) (levels false 0 true) 1) = .next t ∧ t.core.idx = 1 := ⟨_, rfl, rfl⟩
theorem test_meets_ChanOkIsSampled : SamplesChanOk (presented 0x06A true) ∧
    SamplesChanOk (stateOf (regsAt .gap 3 9 0 49 4) (levels false 0 false) 1) ∧
    ¬ SamplesChanOk (stateOf (regsAt .gap 3 9 0 48 4) (levels false 0 false) 1) := by
  refine ⟨⟨rfl, .inl ⟨rfl, rfl, rfl⟩⟩, ⟨rfl, .inr ⟨rfl, rfl, rfl⟩⟩, ?_⟩
  rintro ⟨-, ⟨h, -⟩ | ⟨-, -, h⟩⟩
  · cases h
  · cases h
theorem test_meets_completing_edge :
    (stateOf (regsAt .bit 4 9 0 0 4) (levels true 0x048 true) 1).outcomeAtEdge = some .ok ∧
    (stateOf (regsAt .gap 3 9 0 49 4) (levels false 0 false) 1).outcomeAtEdge = some .errTx ∧
    (presented 0x0C0 false).outcomeAtEdge = some .errConfig ∧ (presented 0x0D8 false).outcomeAtEdge = some .errPort := by
  decide
theorem test_meets_character : Legal (stateOf (regsAt .bit 4 0 0 0 4) (levels true 0x048 false) 2) ∧
    AtByteStart (regsAt .bit 4 0 0 0 4) 4 ∧ AtByteStart (regsAt .bit 3 0 0 0 3) 3 ∧
    NoReset (stateOf (regsAt .bit 4 0 0 0 4) (levels true 0x048 false) 2) (10 * 2) :=
  ⟨rfl, ⟨rfl, rfl, rfl, rfl⟩, ⟨rfl, rfl, rfl, rfl⟩, fun e _ => by simp [State.pinsAt, stateOf, levels]⟩
theorem test_meets_gap : Legal (stateOf (regsAt .gap 3 9 0 0 4) (levels false 0 false) 2) ∧
    AtGapStart (regsAt .gap 3 9 0 0 4) 3 ∧
    NoReset (stateOf (regsAt .gap 3 9 0 0 4) (levels false 0 false) 2) (50 * 2) ∧
    ((stateOf (regsAt .gap 3 9 0 0 4) (levels false 0 false) 2).pinsAt 99).chanOk = false :=
  ⟨rfl, ⟨rfl, rfl, rfl, rfl⟩, fun e _ => by simp [State.pinsAt, stateOf, levels], by simp [State.pinsAt, stateOf, levels]⟩
theorem test_meets_PacingHolds :
    AtByteStart (regsAt .bit 0 0 0 0 0) 0 ∧ NoReset (stateOf (regsAt .bit 0 0 0 0 0) (levels false 0 true) 1) 60 ∧
    (∃ t, Reaches 10 (stateOf (regsAt .bit 0 0 0 0 0) (levels false 0 true) 1) t ∧ t.core.phase = .gap) ∧
    ∃ t, Reaches 60 (stateOf (regsAt .bit 0 0 0 0 0) (levels false 0 true) 1) t ∧ AtByteStart t.core 1 :=
  ⟨⟨rfl, rfl, rfl, rfl⟩, fun e _ => by simp [State.pinsAt, stateOf, levels], ⟨_, rfl, rfl⟩, ⟨_, rfl, rfl, rfl, rfl, rfl⟩⟩
theorem test_meets_transaction : Opens (presented 0x06A true) ⟨0x01, 0x01, 0x05, 0x01⟩ ∧ ChecksPass (presented 0x06A true) 4 :=
  ⟨⟨rfl, rfl, rfl, rfl, rfl, fun e _ => by simp [State.pinsAt, presented, stateOf, levels]⟩,
    fun i _ => by simp [State.pinsAt, presented, stateOf, levels]⟩
theorem test_meets_write_check_failure :
    Opens { presented 0x06A true with stimulus := [levels false 0 false] } ⟨0x01, 0x01, 0x05, 0x01⟩ ∧
    ChecksPass { presented 0x06A true with stimulus := [levels false 0 false] } 0 ∧
    (State.pinsAt { presented 0x06A true with stimulus := [levels false 0 false] } 60).chanOk = false := by
  refine ⟨⟨rfl, rfl, rfl, rfl, rfl, ?_⟩, fun i h => absurd h (by omega), by simp [State.pinsAt, presented, stateOf, levels]⟩
  intro e _
  cases e <;> simp [State.pinsAt, presented, stateOf, levels]
/-- A transaction whose write check at the end of gap 3 is the first to fail, at `BIT_TICKS = 1`. -/
def lastCheckFails : State :=
  { presented 0x06A true with stimulus := List.replicate 239 (levels false 0 true) ++ [levels false 0 false] }
theorem test_meets_LineTrace_last_gap : Opens lastCheckFails ⟨0x01, 0x01, 0x05, 0x01⟩ ∧ ChecksPass lastCheckFails 3 ∧
    (lastCheckFails.pinsAt (60 * (3 + 1) * lastCheckFails.bitTicks)).chanOk = false := by
  refine ⟨⟨rfl, rfl, rfl, rfl, rfl, fun e _ => ?_⟩, fun i hi => ?_, rfl⟩
  · rcases pinsFrom_mem lastCheckFails.pins lastCheckFails.stimulus e with h | h
    · rw [State.pinsAt, h]; rfl
    · rcases List.mem_append.mp h with h | h
      · rw [State.pinsAt, List.eq_of_mem_replicate h]; rfl
      · rw [State.pinsAt, List.mem_singleton.mp h]; rfl
  · match i, hi with
    | 0, _ => rfl
    | 1, _ => rfl
    | 2, _ => rfl
theorem test_meets_LineTrace_empty : Legal (presented 0x06A false) ∧ (presented 0x06A false).core.phase = .idle ∧
    (presented 0x06A false).pins.chanOk = false ∧ validWord (presented 0x0C0 true).pins.reqWord = false :=
  ⟨rfl, rfl, rfl, rfl⟩
theorem test_meets_LegalStatesAreKept :
    (presented 0x06A true).core.r40 1 = true ∧ (∃ t, step (presented 0x06A true) = .next t) ∧
    (stateOf { regsAt .bit 0 3 0 0 0 with status := .errTx } (levels false 0 true) 1).core.legal 1 = true ∧
    { regsAt .bit 0 3 0 0 0 with status := .errTx }.r40 1 = false ∧
    Legal (stateOf { regsAt .gap 0 9 0 0 1 with status := .errTx } (levels false 0 true) 1) :=
  ⟨rfl, ⟨_, rfl⟩, rfl, rfl, rfl⟩
theorem test_meets_RunBeginsWithAReset : Legal (stateOf (regsAt .gap 3 9 2 49 4) resetLevels 3) ∧
    runFromPowerUp 1 9 (([true, false] : List Bool).map .chan ++ .req 0x06A :: []) = .refused .noReset ∧
    ∃ t, runFromPowerUp 1 3 (([false] : List Bool).map .chan ++ .reset (0 + 1) :: [.req 0x06A]) = .next t :=
  ⟨rfl, rfl, _, rfl⟩

end Sys2Proof.Tests
end

section
/-! PROOFS. How one step moves the host's side of the state: the input levels, those to come, and the number of the free
value. -/

namespace Sys2Proof.Machine

/-- The levels that the next edge samples stand on the ports after the step (R13). -/
theorem step_pins {s t : State} (h : step s = .next t) : t.pins = s.pinsAt 1 := by
  have hz : t.pinsAt 0 = s.pinsAt 1 := step_pinsAt h 0
  rwa [State.pinsAt_zero] at hz

/-- The step uses up one entry of the input levels to come (log entry 2). -/
theorem step_stimulus {s t : State} (h : step s = .next t) : t.stimulus = s.stimulus.tail := by
  obtain ⟨-, c, -, rfl⟩ := step_cases h
  rw [State.advance_stimulus, State.withCore_stimulus]

/-- A reset edge keeps the number of the free value, every other edge moves it on (log entry 3). -/
theorem step_resetDraw {s t : State} (h : step s = .next t) :
    t.resetDraw = if s.pins.rst then s.resetDraw else s.resetDraw + 1 := by
  obtain ⟨-, c, -, rfl⟩ := step_cases h
  rw [State.advance_resetDraw, State.withCore_pins, State.withCore_resetDraw]

/-- Settles O41: an edge replaces the registers alone (`step_cases`), so that the rest of the state changes as the end of
the cycle says. -/
theorem stepMovesToTheNextInputs : Obligations.StepMovesToTheNextInputs := by
  unfold Obligations.StepMovesToTheNextInputs
  intro s t h
  exact ⟨step_bitTicks h, step_pins h, step_stimulus h, step_resetDraw h⟩

end Sys2Proof.Machine
end

section
/-! PROOFS. What an edge of a legal state can do, one case for each write of the rules, and that the case is the step. The
statements about the state's registers cite these. -/

namespace Sys2Proof.Machine

open Sys2Proof.Safety

/-! ### The cases of an edge exclude each other -/

/-- An edge leaves one set of registers. -/
theorem EdgeCase.unique {s : State} {c d : Regs} (hc : EdgeCase s c) (hd : EdgeCase s d) : c = d := by
  cases hc with
  | reset => cases hd <;> simp_all
  | quiet => cases hd <;> simp_all
  | reject => cases hd <;> simp_all
  | accept => cases hd <;> simp_all
  | bit => cases hd <;> simp_all
  | gap => cases hd <;> simp_all

/-- The step of a legal state is the case of `EdgeCase` that its inputs and its phase select. -/
theorem EdgeCase.step_eq {s : State} {c : Regs} (hc : EdgeCase s c) (hl : Legal s) :
    step s = .next (s.withCore c).advance := by
  obtain ⟨d, hd, h⟩ := step_of_legal hl
  rw [h, hc.unique hd]

/-! ### Accepting edges -/

/-- The next edge accepts a request exactly in IDLE with `rst = 0` and a request presented (R21). -/
theorem State.accepting_iff (s : State) :
    s.accepting = true ↔ s.core.phase = .idle ∧ s.pins.rst = false ∧ s.pins.reqValid = true := by
  simp [State.accepting, Regs.reqReady, and_assoc]

/-- A mode code stands for a mode exactly at 0 to 4 (R82). -/
theorem modeOfCode_isSome (c : Code) : (modeOfCode c).isSome = decide (c.toNat ≤ 4) := by
  revert c; decide

/-- A word is valid exactly when its mode code is a mode and both its level codes are levels (R104). -/
theorem validWord_eq (w : ReqWord) :
    validWord w = ((modeOfCode (modeField w)).isSome && (levelValid (brightField w) && levelValid (speedField w))) := by
  rw [modeOfCode_isSome, validWord, Bool.and_assoc]

/-- A word whose mode code is none is invalid (R182). -/
theorem validWord_of_none {w : ReqWord} (h : modeOfCode (modeField w) = none) : validWord w = false := by
  simp [validWord_eq, h]

/-- A word whose mode code is a mode is valid exactly when both its level codes are levels. -/
theorem validWord_of_mode {w : ReqWord} {m : Mode} (h : modeOfCode (modeField w) = some m) :
    validWord w = (levelValid (brightField w) && levelValid (speedField w)) := by
  simp [validWord_eq, h]

/-! ### One case for each write of the rules -/

/-- The registers an edge of a legal state leaves, each case under the whole of its condition. The accepting edge, and the
edges of BIT and of GAP, which `EdgeCase` keeps as one operation each, are taken apart here. -/
inductive LegalEdge (s : State) : Regs → Prop
  /-- A reset edge (R210). -/
  | reset (hr : s.pins.rst = true) : LegalEdge s (Regs.afterReset s.resetDraw)
  /-- IDLE with no request (R142). -/
  | quiet (hr : s.pins.rst = false) (hp : s.core.phase = .idle) (hv : s.pins.reqValid = false) : LegalEdge s s.core.quiet
  /-- An invalid request (R182). -/
  | errConfig (hr : s.pins.rst = false) (hp : s.core.phase = .idle) (hv : s.pins.reqValid = true)
      (hw : validWord s.pins.reqWord = false) : LegalEdge s (s.core.raise .errConfig 0)
  /-- A valid request with the channel down (R183). -/
  | errPort (hr : s.pins.rst = false) (hp : s.core.phase = .idle) (hv : s.pins.reqValid = true)
      (hw : validWord s.pins.reqWord = true) (hc : s.pins.chanOk = false) : LegalEdge s (s.core.raise .errPort 0)
  /-- A valid request with the channel up starts its frame (R110). -/
  | start (hr : s.pins.rst = false) (hp : s.core.phase = .idle) (hv : s.pins.reqValid = true)
      (hw : validWord s.pins.reqWord = true) (hc : s.pins.chanOk = true) (f : Frame)
      (hf : encodeRequest s.pins.reqWord = some (frameBytes f)) : LegalEdge s (s.core.start f)
  /-- Inside a bit period (R144). -/
  | countTick (hr : s.pins.rst = false) (hp : s.core.phase ≠ .idle) (ht : s.core.tick < s.bitTicks - 1) :
      LegalEdge s s.core.countTick
  /-- The end of one of slots 0 to 8 (R145). -/
  | nextSlot (hr : s.pins.rst = false) (hp : s.core.phase = .bit) (ht : s.core.tick = s.bitTicks - 1)
      (hb : s.core.bitpos.val < 9) : LegalEdge s s.core.nextSlot
  /-- The end of the stop bit of one of bytes 0 to 3 (R146). -/
  | enterGap (hr : s.pins.rst = false) (hp : s.core.phase = .bit) (ht : s.core.tick = s.bitTicks - 1)
      (hb : s.core.bitpos = 9) (hi : s.core.idx.val < 4) : LegalEdge s s.core.enterGap
  /-- The end of the checksum byte's stop bit (R147). -/
  | finish (hr : s.pins.rst = false) (hp : s.core.phase = .bit) (ht : s.core.tick = s.bitTicks - 1)
      (hb : s.core.bitpos = 9) (hi : s.core.idx = 4) : LegalEdge s s.core.finish
  /-- The end of a bit period of the delay before the last (R148). -/
  | countGap (hr : s.pins.rst = false) (hp : s.core.phase = .gap) (ht : s.core.tick = s.bitTicks - 1)
      (hg : s.core.gapcnt.val < 49) : LegalEdge s s.core.countGap
  /-- The end of the delay with the channel up (R149). -/
  | nextByte (hr : s.pins.rst = false) (hp : s.core.phase = .gap) (ht : s.core.tick = s.bitTicks - 1)
      (hg : s.core.gapcnt.val = 49) (hc : s.pins.chanOk = true) : LegalEdge s s.core.nextByte
  /-- The end of the delay with the channel down (R150). -/
  | failWrite (hr : s.pins.rst = false) (hp : s.core.phase = .gap) (ht : s.core.tick = s.bitTicks - 1)
      (hg : s.core.gapcnt.val = 49) (hc : s.pins.chanOk = false) : LegalEdge s s.core.failWrite

/-- In a legal state a bit period that is not inside its count is at its last tick (R29). -/
theorem tick_eq_of_legal {s : State} (hl : Legal s) (h : ¬ s.core.tick < s.bitTicks - 1) :
    s.core.tick = s.bitTicks - 1 := by
  obtain ⟨ht, -⟩ := (Regs.legal_iff _ _).mp hl
  omega

/-- In a legal state every case of `EdgeCase` is one of `LegalEdge`. -/
theorem EdgeCase.legalEdge {s : State} {c : Regs} (hc : EdgeCase s c) (hl : Legal s) : LegalEdge s c := by
  cases hc with
  | reset hr => exact .reset hr
  | quiet hr hp hv => exact .quiet hr hp hv
  | reject hr hp hv hm => exact .errConfig hr hp hv (validWord_of_none hm)
  | accept hr hp hv m hm =>
    have hw := validWord_of_mode hm
    obtain ⟨hlv, he⟩ | ⟨hlv, hc, he⟩ | ⟨hlv, hc, f, hf, he⟩ := s.core.accept_cases m
      (brightField s.pins.reqWord) (speedField s.pins.reqWord) s.pins.chanOk
    · exact he ▸ .errConfig hr hp hv (hw.trans hlv)
    · exact he ▸ .errPort hr hp hv (hw.trans hlv) hc
    · exact he ▸ .start hr hp hv (hw.trans hlv) hc f (by simp [encodeRequest, hm, hf])
  | bit hr hp =>
    have hbusy : s.core.phase ≠ .idle := by simp [hp]
    obtain ⟨ht, he⟩ | ⟨ht, hb, he⟩ | ⟨ht, hb, hi, he⟩ | ⟨ht, hb, hi, he⟩ := s.core.bitEdge_cases s.bitTicks
    · exact he ▸ .countTick hr hbusy ht
    · exact he ▸ .nextSlot hr hp (tick_eq_of_legal hl ht) hb
    · exact he ▸ .enterGap hr hp (tick_eq_of_legal hl ht) hb hi
    · exact he ▸ .finish hr hp (tick_eq_of_legal hl ht) hb hi
  | gap hr hp =>
    have hbusy : s.core.phase ≠ .idle := by simp [hp]
    obtain ⟨ht, he⟩ | ⟨ht, hg, he⟩ | ⟨ht, hg, hc, he⟩ | ⟨ht, hg, hc, he⟩ :=
      s.core.gapEdge_cases s.bitTicks s.pins.chanOk
    · exact he ▸ .countTick hr hbusy ht
    · exact he ▸ .countGap hr hp (tick_eq_of_legal hl ht) hg
    · exact he ▸ .nextByte hr hp (tick_eq_of_legal hl ht) hg hc
    · exact he ▸ .failWrite hr hp (tick_eq_of_legal hl ht) hg hc

/-- Everything a step can do: the state is legal, and one case of `LegalEdge` gives the registers. -/
theorem step_legalEdge {s t : State} (h : step s = .next t) :
    Legal s ∧ ∃ c, LegalEdge s c ∧ t = (s.withCore c).advance := by
  obtain ⟨hl, c, hc, ht⟩ := step_cases h
  exact ⟨hl, c, hc.legalEdge hl, ht⟩

end Sys2Proof.Machine
end

section
/-! PROOFS. What every step keeps of R40. -/

namespace Sys2Proof.Machine

open Sys2Proof.Safety

/-- The offset after that of one of bytes 0 to 3 does not wrap (R27). -/
theorem idx_add_one_val (i : Fin 5) (h : i.val ≤ 3) : (i + 1).val = i.val + 1 :=
  Fin.val_add_one_of_lt (by simp [Fin.lt_def]; omega)

/-- Every edge of a legal state leaves registers of the legal set: the baud counter stays inside its count, the byte count
follows `idx`, and an ERR_TX is written with the count of the gap it ends (R40, R152). -/
theorem LegalEdge.legal {s : State} {c : Regs} (hc : LegalEdge s c) (hl : Legal s) : c.legal s.bitTicks = true := by
  obtain ⟨htick, hgap, hbit, hidle⟩ := (Regs.legal_iff _ _).mp hl
  have hpos : 0 < s.bitTicks := by omega
  rw [Regs.legal_iff]
  cases hc with
  | reset => simp [hpos]
  | quiet hr hp => simpa [hp, htick] using hidle hp
  | errConfig => simp [htick]
  | errPort => simp [htick]
  | start => simp [hpos]
  | countTick hr hp ht =>
    have : s.core.tick + 1 < s.bitTicks := by omega
    simpa [this] using ⟨hgap, hbit, hidle⟩
  | nextSlot hr hp => simpa [hp, hpos] using hbit hp
  | enterGap hr hp ht hb hi => simp [hpos]; omega
  | finish => simp [hpos]
  | countGap hr hp => simpa [hp, hpos] using hgap hp
  | nextByte hr hp =>
    obtain ⟨hi, hsent⟩ := hgap hp
    simp [hpos, idx_add_one_val _ hi, hsent]
  | failWrite hr hp =>
    obtain ⟨hi, -⟩ := hgap hp
    simp [hpos]; omega

/-- Every step of a legal state ends in a legal state. -/
theorem step_legal {s t : State} (hl : Legal s) (h : step s = .next t) : Legal t := by
  obtain ⟨-, c, hc, rfl⟩ := step_legalEdge h
  exact hc.legal hl

/-- The first character with an ERR_TX report is entered by an accepting edge after an ERR_TX, or was on the line already. -/
theorem LegalEdge.errTx_first_character {s : State} {c : Regs} (hc : LegalEdge s c) (hl : Legal s)
    (hp : c.phase = .bit) (hi : c.idx = 0) (hs : c.status = .errTx) :
    (s.accepting = true ∧ s.core.status = .errTx ∧ AtByteStart c 0) ∨
      (s.core.phase = .bit ∧ s.core.idx = 0 ∧ s.core.status = .errTx) := by
  cases hc with
  | start hr hidle hv => exact .inl ⟨s.accepting_iff.mpr ⟨hidle, hr, hv⟩, hs, rfl, rfl, rfl, rfl⟩
  | countTick => exact .inr ⟨hp, hi, hs⟩
  | nextSlot => exact .inr ⟨hp, hi, hs⟩
  | nextByte hr hgap =>
    obtain ⟨-, hidx, -⟩ := (Regs.legal_iff _ _).mp hl
    have hsucc := idx_add_one_val _ (hidx hgap).1
    rw [Regs.nextByte_idx] at hi
    simp [hi] at hsucc
  | quiet hr hidle => simp [hidle] at hp
  | countGap hr hgap => simp [hgap] at hp
  | reset | errConfig | errPort | enterGap | finish | failWrite => simp at hp

/-- Settles O42: by `LegalEdge.legal`, and for R40 as written by the one way into the state that `Regs.r40_iff` excepts. -/
theorem legalStatesAreKept : Obligations.LegalStatesAreKept := by
  unfold Obligations.LegalStatesAreKept
  refine ⟨fun s t => step_legal, fun s t hs h => ?_, fun s hl hfirst => ?_⟩
  · obtain ⟨hl, hexc⟩ := (Regs.r40_iff _ _).mp hs
    by_cases hx : t.core.phase = .bit ∧ t.core.idx = 0 ∧ t.core.status = .errTx
    · obtain ⟨-, c, hc, rfl⟩ := step_legalEdge h
      obtain ⟨hp, hi, hst⟩ := hx
      obtain ⟨hacc, hst', hstart⟩ | hold := hc.errTx_first_character hl hp hi hst
      · exact .inr ⟨hacc, hst', hst, hstart⟩
      · exact absurd hold hexc
    · exact .inl ((Regs.r40_iff _ _).mpr ⟨step_legal hl h, hx⟩)
  · exact (Regs.r40_iff _ _).mpr ⟨hl, fun ⟨hp, hi, _⟩ => hfirst hp hi⟩

/-- Settles O43, by induction on the number of steps. -/
theorem legalStatesNeverStop : Obligations.LegalStatesNeverStop := by
  unfold Obligations.LegalStatesNeverStop
  intro k
  induction k with
  | zero => exact fun s hl => ⟨s, reaches_zero s, hl⟩
  | succ k ih =>
    intro s hl
    obtain ⟨c, -, h⟩ := step_of_legal hl
    obtain ⟨t, ht, hlt⟩ := ih _ (step_legal hl h)
    exact ⟨t, (reaches_succ_iff k s t).mpr ⟨_, h, ht⟩, hlt⟩

end Sys2Proof.Machine
end

section
/-! PROOFS. The frame registers of an idle block and the free value's number are hidden: every edge keeps a run and its copy
with other hidden values alike in all that the outputs show (R50, 93 U8). -/

namespace Sys2Proof.Machine

open Sys2Proof.Safety

/-- The registers with another frame in the frame registers. -/
def Regs.withFrame (r : Regs) (f : Frame) : Regs :=
  { r with fbMode := f.mode, fbBright := f.bright, fbSpeed := f.speed, acc := f.checksum }

/-- The state with another frame in the frame registers and another number of the free value. -/
def State.withHidden (s : State) (f : Frame) (draw : Nat) : State :=
  { s with core := s.core.withFrame f, resetDraw := draw }

@[simp] theorem Regs.withFrame_phase (r : Regs) (f : Frame) : (r.withFrame f).phase = r.phase := rfl
@[simp] theorem Regs.withFrame_self (r : Regs) : r.withFrame r.frame = r := rfl
@[simp] theorem State.withHidden_core (s : State) (f : Frame) (n : Nat) : (s.withHidden f n).core = s.core.withFrame f := rfl

/-- Registers that agree but in the frame registers are each other's with another frame. -/
theorem agreeButFrame_iff (a b : Regs) : AgreeButFrame a b ↔ b = a.withFrame b.frame :=
  eq_comm

/-- The legal set does not speak of the frame registers (R40). -/
theorem State.withHidden_legal {s : State} (hl : Legal s) (f : Frame) (n : Nat) : Legal (s.withHidden f n) := hl

/-- The line shows mark outside BIT, whatever the frame registers hold (R87, R141). -/
theorem Regs.withFrame_txd (r : Regs) (f : Frame) (h : r.phase = .bit → f = r.frame) : (r.withFrame f).txd = r.txd := by
  cases hp : r.phase with
  | bit => rw [h hp, withFrame_self]
  | idle => simp [Regs.txd, hp]
  | gap => simp [Regs.txd, hp]

/-- Another frame in the registers of an idle block, and another number of the free value, show in no output. -/
theorem State.withHidden_outputs (s : State) (f : Frame) (n : Nat) (h : s.core.phase ≠ .idle → f = s.core.frame) :
    (s.withHidden f n).outputs = s.outputs := by
  have htxd : (s.core.withFrame f).txd = s.core.txd := s.core.withFrame_txd f fun hp => h (by simp [hp])
  unfold State.outputs
  rw [withHidden_core, htxd]
  rfl

/-- Hidden values commute with the end of an edge. -/
theorem State.withHidden_withCore_advance (s : State) (c : Regs) (f g : Frame) (n : Nat) :
    ((s.withHidden f n).withCore (c.withFrame g)).advance =
      ((s.withCore c).advance).withHidden g (if s.pins.rst then n else n + 1) := rfl

/-- The accepting edge writes all four frame registers or none of them (R110). -/
theorem Regs.withFrame_accept (r : Regs) (f : Frame) (m : Mode) (b s : Code) (c : Bool) :
    ∃ g, (r.withFrame f).accept m b s c = (r.accept m b s c).withFrame g ∧
      ((r.accept m b s c).phase ≠ .idle → g = (r.accept m b s c).frame) := by
  unfold Regs.accept
  cases frameOf m b s with
  | none => exact ⟨f, rfl, fun h => absurd rfl h⟩
  | some g =>
    cases c with
    | false => exact ⟨f, rfl, fun h => absurd rfl h⟩
    | true => exact ⟨g, rfl, fun _ => rfl⟩

/-- An edge takes a state and its copy with other hidden values to registers that differ in the frame registers at most, and
in an open transaction in nothing: the frame is written when the transaction starts and kept while it runs (R62, R110). -/
theorem EdgeCase.withHidden {s : State} {c : Regs} (hc : EdgeCase s c) (f : Frame) (n : Nat)
    (hf : s.core.phase ≠ .idle → f = s.core.frame) :
    ∃ g, EdgeCase (s.withHidden f n) (c.withFrame g) ∧ (c.phase ≠ .idle → g = c.frame) := by
  cases hc with
  | reset hr => exact ⟨(Regs.afterReset n).frame, .reset (s := s.withHidden f n) hr, fun h => absurd rfl h⟩
  | quiet hr hp hv => exact ⟨f, .quiet (s := s.withHidden f n) hr hp hv, fun h => absurd hp h⟩
  | reject hr hp hv hm => exact ⟨f, .reject (s := s.withHidden f n) hr hp hv hm, fun h => absurd rfl h⟩
  | accept hr hp hv m hm =>
    obtain ⟨g, he, hg⟩ := s.core.withFrame_accept f m (brightField s.pins.reqWord) (speedField s.pins.reqWord)
      s.pins.chanOk
    exact ⟨g, he ▸ .accept (s := s.withHidden f n) hr hp hv m hm, hg⟩
  | bit hr hp =>
    obtain rfl := hf (by simp [hp])
    exact ⟨(s.core.bitEdge s.bitTicks).frame, .bit (s := s.withHidden s.core.frame n) hr hp, fun _ => rfl⟩
  | gap hr hp =>
    obtain rfl := hf (by simp [hp])
    exact ⟨(s.core.gapEdge s.bitTicks s.pins.chanOk).frame, .gap (s := s.withHidden s.core.frame n) hr hp, fun _ => rfl⟩

/-- A legal state and its copy with other hidden values step to a state and its copy with other hidden values. -/
theorem step_withHidden {s : State} (hl : Legal s) (f : Frame) (n : Nat) (hf : s.core.phase ≠ .idle → f = s.core.frame) :
    ∃ t g k, step s = .next t ∧ step (s.withHidden f n) = .next (t.withHidden g k) ∧
      (t.core.phase ≠ .idle → g = t.core.frame) := by
  obtain ⟨c, hc, hs⟩ := step_of_legal hl
  obtain ⟨g, hc', hg⟩ := hc.withHidden f n hf
  have hs' := hc'.step_eq (State.withHidden_legal hl f n)
  rw [State.withHidden_withCore_advance] at hs'
  exact ⟨_, g, _, hs, hs', hg⟩

/-- Hidden values show in no cycle of a run. -/
theorem outputTrace_withHidden (n : Nat) {s : State} (hl : Legal s) (f : Frame) (draw : Nat)
    (hf : s.core.phase ≠ .idle → f = s.core.frame) : outputTrace n (s.withHidden f draw) = outputTrace n s := by
  induction n generalizing s f draw with
  | zero => rfl
  | succ n ih =>
    obtain ⟨t, g, k, hs, hs', hg⟩ := step_withHidden hl f draw hf
    have htail := ih (step_legal hl hs) g k hg
    simp only [outputTrace, hs, hs', s.withHidden_outputs f draw hf, htail]

/-- Settles O16: two such states are a state and its copy with other hidden values, which every edge keeps so
(`step_withHidden`). -/
theorem idleFrameRegistersAreUnobservable : Obligations.IdleFrameRegistersAreUnobservable := by
  unfold Obligations.IdleFrameRegistersAreUnobservable
  intro n s s' hl hp hagree hpins hstim hbt
  have hcopy : s' = s.withHidden s'.core.frame s'.resetDraw := by
    rw [State.withHidden, ← (agreeButFrame_iff _ _).mp hagree, ← hpins, ← hstim, ← hbt]
  rw [hcopy]
  exact outputTrace_withHidden n hl _ _ fun h => absurd hp h

end Sys2Proof.Machine
end

section
/-! PROOFS. What each edge writes to `done_r`, `status` and `sent_count` (R37 to R39, R180). -/

namespace Sys2Proof.Machine

open Sys2Proof.Safety

/-! ### The outcome of an edge, phase by phase -/

section
variable {s : State}

theorem State.outcomeAtEdge_of_rst (hr : s.pins.rst = true) : s.outcomeAtEdge = none := by
  simp [outcomeAtEdge, hr]

theorem State.outcomeAtEdge_of_idle (hr : s.pins.rst = false) (hp : s.core.phase = .idle) :
    s.outcomeAtEdge =
      if s.pins.reqValid then
        if !validWord s.pins.reqWord then some .errConfig else if !s.pins.chanOk then some .errPort else none
      else none := by
  simp [outcomeAtEdge, hr, hp]

theorem State.outcomeAtEdge_of_bit (hr : s.pins.rst = false) (hp : s.core.phase = .bit) :
    s.outcomeAtEdge =
      if s.core.tick = s.bitTicks - 1 ∧ s.core.bitpos = 9 ∧ s.core.idx = 4 then some .ok else none := by
  simp [outcomeAtEdge, hr, hp]

theorem State.outcomeAtEdge_of_gap (hr : s.pins.rst = false) (hp : s.core.phase = .gap) :
    s.outcomeAtEdge =
      if s.core.tick = s.bitTicks - 1 ∧ s.core.gapcnt.val = 49 ∧ s.pins.chanOk = false then some .errTx else none := by
  simp [outcomeAtEdge, hr, hp]

/-- No transaction completes inside a bit period (R144). -/
theorem State.outcomeAtEdge_of_counting (hr : s.pins.rst = false) (hp : s.core.phase ≠ .idle)
    (ht : s.core.tick < s.bitTicks - 1) : s.outcomeAtEdge = none := by
  cases hph : s.core.phase with
  | idle => exact absurd hph hp
  | bit => rw [outcomeAtEdge_of_bit hr hph, if_neg]; omega
  | gap => rw [outcomeAtEdge_of_gap hr hph, if_neg]; omega

end

/-- An edge completes no transaction and writes neither `done_r` a 1 nor `status` but by reset, or it completes one with an
outcome, which it writes to `status` with a 1 in `done_r` (R37, R39, R181). -/
theorem LegalEdge.outcome {s : State} {c : Regs} (hc : LegalEdge s c) :
    (s.outcomeAtEdge = none ∧ c.doneR = false ∧ c.status = if s.pins.rst then .none else s.core.status) ∨
      (s.pins.rst = false ∧ ∃ o, s.outcomeAtEdge = some o ∧ c.doneR = true ∧ c.status = o) := by
  cases hc with
  | reset hr => exact .inl ⟨s.outcomeAtEdge_of_rst hr, rfl, by simp [hr]⟩
  | quiet hr hp hv => exact .inl ⟨by simp [s.outcomeAtEdge_of_idle hr hp, hv], rfl, by simp [hr]⟩
  | start hr hp hv hw hc =>
    exact .inl ⟨by simp [s.outcomeAtEdge_of_idle hr hp, hv, hw, hc], rfl, by simp [hr]⟩
  | countTick hr hp ht => exact .inl ⟨s.outcomeAtEdge_of_counting hr hp ht, rfl, by simp [hr]⟩
  | nextSlot hr hp ht hb =>
    have h9 : s.core.bitpos ≠ 9 := by intro h; simp [h] at hb
    exact .inl ⟨by simp [s.outcomeAtEdge_of_bit hr hp, h9], rfl, by simp [hr]⟩
  | enterGap hr hp ht hb hi =>
    have h4 : s.core.idx ≠ 4 := by intro h; simp [h] at hi
    exact .inl ⟨by simp [s.outcomeAtEdge_of_bit hr hp, h4], rfl, by simp [hr]⟩
  | countGap hr hp ht hg =>
    exact .inl ⟨by simp [s.outcomeAtEdge_of_gap hr hp, hg.ne], rfl, by simp [hr]⟩
  | nextByte hr hp ht hg hc => exact .inl ⟨by simp [s.outcomeAtEdge_of_gap hr hp, hc], rfl, by simp [hr]⟩
  | errConfig hr hp hv hw =>
    exact .inr ⟨hr, .errConfig, by simp [s.outcomeAtEdge_of_idle hr hp, hv, hw], rfl, rfl⟩
  | errPort hr hp hv hw hc =>
    exact .inr ⟨hr, .errPort, by simp [s.outcomeAtEdge_of_idle hr hp, hv, hw, hc], rfl, rfl⟩
  | finish hr hp ht hb hi => exact .inr ⟨hr, .ok, by simp [s.outcomeAtEdge_of_bit hr hp, ht, hb, hi], rfl, rfl⟩
  | failWrite hr hp ht hg hc => exact .inr ⟨hr, .errTx, by simp [s.outcomeAtEdge_of_gap hr hp, ht, hg, hc], rfl, rfl⟩

/-- Settles O46, by the two kinds of edge of `LegalEdge.outcome`. -/
theorem doneFollowsEachCompletingEdge : Obligations.DoneFollowsEachCompletingEdge := by
  unfold Obligations.DoneFollowsEachCompletingEdge
  intro s t h
  obtain ⟨-, c, hc, rfl⟩ := step_legalEdge h
  obtain ⟨hnone, hdone, -⟩ | ⟨-, o, hsome, hdone, -⟩ := hc.outcome
  · simp [hnone, hdone]
  · simp [hsome, hdone]

/-- No outcome has one of the codes 5 to 7 (R37). -/
theorem Status.code_le (e : Status) : e.code.toNat ≤ 4 := by
  cases e <;> decide

/-- Settles O47, by the two kinds of edge of `LegalEdge.outcome`. -/
theorem statusIsWrittenAtCompletionOnly : Obligations.StatusIsWrittenAtCompletionOnly := by
  unfold Obligations.StatusIsWrittenAtCompletionOnly
  intro s t h
  refine ⟨?_, Status.code_le _⟩
  obtain ⟨-, c, hc, rfl⟩ := step_legalEdge h
  obtain ⟨hnone, -, hst⟩ | ⟨hr, o, hsome, -, hst⟩ := hc.outcome
  · simp [hnone, hst]
  · simp [hr, hsome, hst]

/-! ### The byte count -/

/-- The next edge ends a character's stop bit (R146, R147). -/
def State.EndsStopBit (s : State) : Prop :=
  s.core.phase = .bit ∧ s.core.tick = s.bitTicks - 1 ∧ s.core.bitpos = 9

/-- An edge of a legal state clears `sent_count` at reset and at acceptance, sets it to `idx + 1` at the end of a stop bit,
and keeps it otherwise; a failing write sets it to the value that it has since the stop bit before (R38, R150). -/
theorem LegalEdge.sentCount {s : State} {c : Regs} (hc : LegalEdge s c) (hl : Legal s) :
    ((s.pins.rst = true ∨ s.accepting = true) ∧ c.sentCount = 0) ∨
      (s.pins.rst = false ∧ s.accepting = false ∧ s.EndsStopBit ∧ c.sentCount.val = s.core.idx.val + 1) ∨
      (s.pins.rst = false ∧ s.accepting = false ∧ ¬ s.EndsStopBit ∧ c.sentCount = s.core.sentCount) := by
  have hbusy (h : s.core.phase ≠ .idle) : s.accepting = false := by simp [State.accepting, Regs.reqReady, h]
  have hgap (h : s.core.phase = .gap) : s.accepting = false ∧ ¬ s.EndsStopBit :=
    ⟨hbusy (by simp [h]), fun ⟨hp, _⟩ => by simp [h] at hp⟩
  cases hc with
  | reset hr => exact .inl ⟨.inl hr, rfl⟩
  | errConfig hr hp hv | errPort hr hp hv | start hr hp hv =>
    exact .inl ⟨.inr (s.accepting_iff.mpr ⟨hp, hr, hv⟩), rfl⟩
  | enterGap hr hp ht hb => exact .inr (.inl ⟨hr, hbusy (by simp [hp]), ⟨hp, ht, hb⟩, rfl⟩)
  | finish hr hp ht hb hi => exact .inr (.inl ⟨hr, hbusy (by simp [hp]), ⟨hp, ht, hb⟩, by simp [hi]⟩)
  | quiet hr hp hv =>
    exact .inr (.inr ⟨hr, by simp [State.accepting, hv], fun ⟨hbit, _⟩ => by simp [hp] at hbit, rfl⟩)
  | countTick hr hp ht => exact .inr (.inr ⟨hr, hbusy hp, fun ⟨_, hlast, _⟩ => by omega, rfl⟩)
  | nextSlot hr hp ht hb =>
    exact .inr (.inr ⟨hr, hbusy (by simp [hp]), fun ⟨_, _, h9⟩ => by simp [h9] at hb, rfl⟩)
  | countGap hr hp | nextByte hr hp => exact .inr (.inr ⟨hr, (hgap hp).1, (hgap hp).2, rfl⟩)
  | failWrite hr hp =>
    obtain ⟨-, hcount, -⟩ := (Regs.legal_iff _ _).mp hl
    exact .inr (.inr ⟨hr, (hgap hp).1, (hgap hp).2, Fin.ext (hcount hp).2.symm⟩)

/-- Settles O48, by the three kinds of edge of `LegalEdge.sentCount`. -/
theorem sentCountCountsStopBits : Obligations.SentCountCountsStopBits := by
  unfold Obligations.SentCountCountsStopBits
  intro s t h
  obtain ⟨hl, c, hc, rfl⟩ := step_legalEdge h
  obtain ⟨hclear, hn⟩ | ⟨hr, ha, hend, hn⟩ | ⟨hr, ha, hend, hn⟩ := hc.sentCount hl
  · simp [hclear, hn]
  · unfold State.EndsStopBit at hend
    simp [hr, ha, hend, hn]
  · unfold State.EndsStopBit at hend
    simp [hr, ha, hend, hn]

end Sys2Proof.Machine
end

section
/-! PROOFS. Which input ports an edge reads (R21, R23, R88), and that a value outside the legal set has none. -/

namespace Sys2Proof.Machine

open Sys2Proof.Safety

/-! ### The request port -/

/-- An edge of a busy block is the same with any request at the port (R21, R73). -/
theorem EdgeCase.withRequest {s : State} {c : Regs} (hc : EdgeCase s c) (hp : s.core.phase ≠ .idle) (v : Bool)
    (w : ReqWord) : EdgeCase (withRequest s v w) c := by
  cases hc with
  | reset hr => exact .reset (s := Safety.withRequest s v w) hr
  | quiet _ hidle | reject _ hidle | accept _ hidle => exact absurd hidle hp
  | bit hr hbit => exact .bit (s := Safety.withRequest s v w) hr hbit
  | gap hr hgap => exact .gap (s := Safety.withRequest s v w) hr hgap

/-- Settles O51: the edge of a busy block is a case of `EdgeCase` that does not read the request port. -/
theorem requestWhileBusyHasNoEffect : Obligations.RequestWhileBusyHasNoEffect := by
  unfold Obligations.RequestWhileBusyHasNoEffect
  intro s v w hl hp
  obtain ⟨c, hc, h⟩ := step_of_legal hl
  exact ⟨_, _, h, (hc.withRequest hp v w).step_eq (s := withRequest s v w) hl, rfl⟩

/-- A request at a busy block is not accepted: the edge is the one the block makes without it (R21, R185). -/
theorem exec_of_busy (i : Instr) {s : State} (hp : s.core.phase ≠ .idle) (hr : s.pins.rst = false) :
    exec i s = .next (s.withCore (s.core.sequence s.bitTicks s.pins.chanOk)) := by
  simp [exec_eq, State.sendEdge, Regs.reqReady, hp, State.plainEdge, Regs.plainEdge, hr]

/-- Settles O26: both sides are the sequencer's edge, in BIT and in GAP. -/
theorem sendWhileBusyIsNotAccepted : Obligations.SendWhileBusyIsNotAccepted := by
  unfold Obligations.SendWhileBusyIsNotAccepted
  intro i s hl hp hr
  refine ⟨exec_of_busy i hp hr, ?_⟩
  rw [exec_of_busy i hp hr]
  cases hph : s.core.phase with
  | idle => exact absurd hph hp
  | bit => simp [step_of_bit hl hr hph, advanceOutcome, Regs.sequence, hph]
  | gap => simp [step_of_gap hl hr hph, advanceOutcome, Regs.sequence, hph]

/-- Settles O17: where there is a request to fetch, the step is its decoded instruction by the definition of the step. -/
theorem stepRunsTheDecodedInstruction : Obligations.StepRunsTheDecodedInstruction := by
  unfold Obligations.StepRunsTheDecodedInstruction
  intro s i hl hp hr hv hd
  have hfetch : s.fetch = some s.pins.reqWord := by simp [State.fetch, Regs.reqReady, hp, hr, hv]
  have hlegal : s.core.legal s.bitTicks = true := hl
  simp [step, hlegal, stepLegal, hfetch, hd]

/-- Settles O39: the step asks for the legal set first. -/
theorem illegalValueHasNoStep : Obligations.IllegalValueHasNoStep := by
  unfold Obligations.IllegalValueHasNoStep
  intro s h
  exact if_neg h

/-! ### `chan_ok` -/

/-- The accepting edge depends on `chan_ok` exactly where the level codes are valid: it starts the frame or ends in ERR_PORT
(R23, R110). -/
theorem Regs.accept_not_ne_iff (r : Regs) (m : Mode) (b s : Code) (c : Bool) :
    r.accept m b s (!c) ≠ r.accept m b s c ↔ (levelValid b && levelValid s) = true := by
  cases hv : (levelValid b && levelValid s) with
  | false => simp [Regs.accept, frameOf_invalid m b s hv]
  | true =>
    obtain ⟨hb, hs⟩ := Bool.and_eq_true_iff.mp hv
    have hne (f : Frame) (e : Status) : (r.start f).phase ≠ (r.raise e 0).phase := by simp
    cases c with
    | false => simpa [Regs.accept, frameOf_valid m b s hb hs] using fun h => hne _ _ (congrArg Regs.phase h)
    | true => simpa [Regs.accept, frameOf_valid m b s hb hs] using fun h => hne _ _ (congrArg Regs.phase h.symm)

/-- The edge of phase GAP depends on `chan_ok` exactly at the end of the delay: the next byte starts or its write fails
(R23, R149, R150). -/
theorem Regs.gapEdge_not_ne_iff (r : Regs) (bt : Nat) (c : Bool) :
    r.gapEdge bt (!c) ≠ r.gapEdge bt c ↔ ¬ r.tick < bt - 1 ∧ r.gapcnt.val = 49 := by
  by_cases ht : r.tick < bt - 1
  · simp [Regs.gapEdge, Regs.atBoundary, ht]
  by_cases hg : r.gapcnt.val < 49
  · simp [Regs.gapEdge, Regs.atBoundary, ht, hg, hg.ne]
  · have hne : r.nextByte ≠ r.failWrite := fun h => by simpa using congrArg Regs.phase h
    have h49 : r.gapcnt.val = 49 := by have h : r.gapcnt.val < 50 := r.gapcnt.isLt; omega
    cases c with
    | false => simpa [Regs.gapEdge, Regs.atBoundary, ht, h49] using hne
    | true => simpa [Regs.gapEdge, Regs.atBoundary, ht, h49] using hne.symm

/-- With the other level on `chan_ok` an edge of a legal state leaves other registers exactly where it is one of the two kinds
of edge that sample the level (R23). -/
theorem EdgeCase.withChanOk_not {s : State} {c : Regs} (hc : EdgeCase s c) (hl : Legal s) :
    ∃ d, EdgeCase (withChanOk s (!s.pins.chanOk)) d ∧ (d ≠ c ↔ SamplesChanOk s) := by
  cases hc with
  | reset hr => exact ⟨_, .reset (s := withChanOk s (!s.pins.chanOk)) hr, by simp [withChanOk, SamplesChanOk, hr]⟩
  | quiet hr hp hv =>
    exact ⟨_, .quiet (s := withChanOk s (!s.pins.chanOk)) hr hp hv, by simp [withChanOk, SamplesChanOk, hp, hv]⟩
  | reject hr hp hv hm =>
    exact ⟨_, .reject (s := withChanOk s (!s.pins.chanOk)) hr hp hv hm,
      by simp [withChanOk, SamplesChanOk, hp, validWord_of_none hm]⟩
  | accept hr hp hv m hm =>
    refine ⟨_, .accept (s := withChanOk s (!s.pins.chanOk)) hr hp hv m hm,
      (s.core.accept_not_ne_iff m _ _ s.pins.chanOk).trans ?_⟩
    simp [withChanOk, SamplesChanOk, hr, hp, hv, validWord_of_mode hm]
  | bit hr hp => exact ⟨_, .bit (s := withChanOk s (!s.pins.chanOk)) hr hp, by simp [withChanOk, SamplesChanOk, hp]⟩
  | gap hr hp =>
    obtain ⟨htick, -⟩ := (Regs.legal_iff _ _).mp hl
    have hlast : ¬ s.core.tick < s.bitTicks - 1 ↔ s.core.tick = s.bitTicks - 1 := by omega
    refine ⟨_, .gap (s := withChanOk s (!s.pins.chanOk)) hr hp,
      (s.core.gapEdge_not_ne_iff s.bitTicks s.pins.chanOk).trans ?_⟩
    simp [SamplesChanOk, hr, hp, hlast]

/-- Settles O52, by `EdgeCase.withChanOk_not`. -/
theorem chanOkIsSampledAtTwoKindsOfEdge : Obligations.ChanOkIsSampledAtTwoKindsOfEdge := by
  unfold Obligations.ChanOkIsSampledAtTwoKindsOfEdge
  intro s hl
  obtain ⟨c, hc, h⟩ := step_of_legal hl
  obtain ⟨d, hd, hne⟩ := hc.withChanOk_not hl
  exact ⟨_, _, h, hd.step_eq (s := withChanOk s (!s.pins.chanOk)) hl, hne⟩

end Sys2Proof.Machine
end

section
/-! PROOFS. The output ports and the state after reset (R46 to R48, R50). -/

namespace Sys2Proof.Machine

open Sys2Proof.Safety

/-- The port shows the byte count, which fits its three bits (R48). -/
theorem State.outputs_sentCount_toNat (s : State) : s.outputs.sentCount.toNat = s.core.sentCount.val := by
  have h := s.core.sentCount.isLt
  simp only [State.outputs, BitVec.toNat_ofNat]
  omega

/-- Settles O12: every port but `req_ready` is a function of the registers, so states with the same registers show the
same. -/
theorem outputPorts : Obligations.OutputPorts := by
  unfold Obligations.OutputPorts
  refine ⟨fun s => ⟨?_, ?_, rfl, rfl, s.outputs_sentCount_toNat, rfl⟩, fun s t h => ?_, rfl, rfl, rfl, rfl, rfl⟩
  · simp [State.outputs, Regs.busy]
  · simp [State.outputs, Regs.reqReady]
  · simp [State.outputs, h]

/-- The state after reset is legal at every positive `BIT_TICKS` (R40, R50). -/
theorem resetAt_legal {bt : Nat} (h : 1 ≤ bt) : Legal (State.resetAt bt) :=
  (Regs.legal_iff _ _).mpr ⟨h, by simp [State.resetAt, Regs.reset]⟩

/-- Settles O13: R50's values are those of the definition, and legality is `resetAt_legal`. -/
theorem resetStateIsLegal : Obligations.ResetStateIsLegal := by
  unfold Obligations.ResetStateIsLegal
  have hidle : State.reset.core.phase = .idle := rfl
  exact ⟨rfl, fun bt => resetAt_legal, resetAt_legal le_rfl, fun h => absurd hidle h, fun _ => rfl, rfl, rfl, rfl⟩

end Sys2Proof.Machine
end

section
/-! PROOFS. What each edge writes to the frame registers and to `idx` (R62, R64, R70): the frame is written where a transaction
starts and nowhere else but at reset. -/

namespace Sys2Proof.Machine

open Sys2Proof.Safety

/-! ### The frame registers -/

@[simp] theorem Regs.start_frame (r : Regs) (f : Frame) : (r.start f).frame = f := rfl

/-- An edge without reset keeps the frame and opens no transaction, or it accepts a valid word, opens a transaction and writes
that word's frame (R62, R108, R110). -/
theorem LegalEdge.frame {s : State} {c : Regs} (hc : LegalEdge s c) (hr : s.pins.rst = false) :
    (c.frame = s.core.frame ∧ (c.phase ≠ .idle → s.core.phase ≠ .idle)) ∨
      (s.accepting = true ∧ validWord s.pins.reqWord = true ∧ c.phase = .bit ∧
        encodeRequest s.pins.reqWord = some (frameBytes c.frame)) := by
  cases hc with
  | reset hrst => simp [hr] at hrst
  | start _ hp hv hw _ f hf => exact .inr ⟨s.accepting_iff.mpr ⟨hp, hr, hv⟩, hw, rfl, hf⟩
  | quiet => exact .inl ⟨rfl, id⟩
  | errConfig | errPort | finish | failWrite => exact .inl ⟨rfl, fun h => absurd rfl h⟩
  | countTick _ hp => exact .inl ⟨rfl, fun _ => hp⟩
  | nextSlot _ hp | enterGap _ hp | countGap _ hp | nextByte _ hp => exact .inl ⟨rfl, fun _ => by simp [hp]⟩

/-- Whether registers hold a frame is a matter of the frame registers alone. -/
theorem holdsFrame_of_frame_eq {a b : Regs} (hf : a.frame = b.frame) (h : HoldsFrame b) : HoldsFrame a := by
  obtain ⟨w, hw, he⟩ := h
  exact ⟨w, hw, hf ▸ he⟩

/-- Settles O44: reset leaves no transaction open, and by `LegalEdge.frame` every other edge keeps the frame of the open
transaction or writes the frame of the word that it accepts. -/
theorem openTransactionHoldsAFrame : Obligations.OpenTransactionHoldsAFrame := by
  unfold Obligations.OpenTransactionHoldsAFrame
  intro s t hs h hopen
  cases hr : s.pins.rst with
  | true =>
    obtain ⟨hl, -⟩ := step_cases h
    obtain rfl : _ = t := Host.Outcome.next.inj ((step_of_reset hl hr).symm.trans h)
    exact absurd rfl hopen
  | false =>
    obtain ⟨-, c, hc, rfl⟩ := step_legalEdge h
    obtain ⟨hkept, hbusy⟩ | ⟨-, hw, -, he⟩ := hc.frame hr
    · exact holdsFrame_of_frame_eq hkept (hs (hbusy hopen))
    · exact ⟨_, hw, he⟩

/-- Settles O49, by the two kinds of edge of `LegalEdge.frame`. -/
theorem frameIsImmutableInATransaction : Obligations.FrameIsImmutableInATransaction := by
  unfold Obligations.FrameIsImmutableInATransaction
  intro s t h hr
  obtain ⟨-, c, hc, rfl⟩ := step_legalEdge h
  obtain ⟨hkept, -⟩ | ⟨hacc, -, hp, he⟩ := hc.frame hr
  · exact ⟨fun _ => hkept, fun hne => absurd hkept hne⟩
  · obtain ⟨hidle, -⟩ := s.accepting_iff.mp hacc
    exact ⟨fun hbusy => absurd hidle hbusy, fun _ => ⟨hacc, hp, he⟩⟩

/-! ### The offset -/

/-- Settles O50: of the edges without reset, two write `idx`: the one that starts a transaction, with 0, and the one that ends a
gap, with the offset after one of 0 to 3, which does not wrap (`idx_add_one_val`). -/
theorem bytesGoInOffsetOrder : Obligations.BytesGoInOffsetOrder := by
  unfold Obligations.BytesGoInOffsetOrder
  intro s t h hr
  obtain ⟨hl, c, hc, rfl⟩ := step_legalEdge h
  cases hc with
  | reset hrst => simp [hr] at hrst
  | start _ hp hv => exact .inr (.inr ⟨s.accepting_iff.mpr ⟨hp, hr, hv⟩, rfl, rfl, rfl⟩)
  | nextByte _ hp =>
    obtain ⟨-, hgap, -⟩ := (Regs.legal_iff _ _).mp hl
    exact .inr (.inl ⟨hp, rfl, idx_add_one_val _ (hgap hp).1, rfl⟩)
  | quiet | errConfig | errPort | countTick | nextSlot | enterGap | finish | countGap | failWrite => exact .inl rfl

end Sys2Proof.Machine
end

section
/-! PROOFS. Characters and gaps from their first cycle to their last (R67, R71, R148 to R150). Both are counted alike: a number
of bit periods of `BIT_TICKS` cycles, in a register that the phase names. One invariant says where in its count the phase
stands, and one induction runs it to the phase's last cycle. -/

namespace Sys2Proof.Machine

open Sys2Proof.Safety

/-! ### Runs without reset -/

/-- One more step at the end of a run. -/
theorem reaches_snoc {n : Nat} {s t u : State} (ht : Reaches n s t) (hu : step t = .next u) : Reaches (n + 1) s u :=
  (reaches_add_iff n 1 s u).mpr ⟨t, ht, (reaches_one_iff t u).mpr hu⟩

/-- The input levels of the state after `n` steps. -/
theorem reaches_pins {n : Nat} {s t : State} (ht : Reaches n s t) : t.pins = s.pinsAt n :=
  t.pinsAt_zero.symm.trans (reaches_pinsAt ht 0)

/-- The next edge is no reset edge while a run without reset lasts. -/
theorem rst_of_reaches {n N : Nat} {s t : State} (hr : NoReset s N) (hn : n < N) (ht : Reaches n s t) :
    t.pins.rst = false := by
  rw [reaches_pins ht]
  exact hr n hn

/-- A property of the cycle's number and its state that holds in the first cycle, and that every edge without reset takes from
one cycle to the next, holds after `N` edges. -/
theorem reaches_of_noReset {s : State} {N : Nat} {P : Nat → State → Prop} (hr : NoReset s N) (h0 : P 0 s)
    (hstep : ∀ n t, n < N → t.pins.rst = false → P n t → ∃ u, step t = .next u ∧ P (n + 1) u) :
    ∃ t, Reaches N s t ∧ P N t := by
  induction N with
  | zero => exact ⟨s, reaches_zero s, h0⟩
  | succ N ih =>
    obtain ⟨t, ht, hP⟩ := ih (fun e he => hr e (by omega)) fun n t hn => hstep n t (by omega)
    obtain ⟨u, hu, hPu⟩ := hstep N t (by omega) (rst_of_reaches hr (by omega) ht) hP
    exact ⟨u, reaches_snoc ht hu, hPu⟩

/-! ### The line and the frame -/

/-- The byte that the serializer selects is the frame's byte at that offset (R61, R64). -/
theorem Regs.frameBytes_getElem? (r : Regs) (i : Fin 5) : (frameBytes r.frame)[i.val]? = some (r.selByte i) := by
  fin_cases i <;> rfl

/-- The selected byte is a matter of the frame registers alone. -/
theorem Regs.selByte_of_frame_eq {a b : Regs} (h : a.frame = b.frame) (i : Fin 5) : a.selByte i = b.selByte i := by
  have hi := a.frameBytes_getElem? i
  rw [h, b.frameBytes_getElem? i] at hi
  exact (Option.some.inj hi).symm

/-- In BIT the line shows the current slot of the selected byte (R141). -/
theorem Regs.txd_of_bit {r : Regs} (h : r.phase = .bit) : r.txd = charSlot (r.selByte r.idx) r.bitpos := by
  simp [Regs.txd, h]

/-- Outside BIT the line is at mark (R141). -/
theorem Regs.txd_of_ne_bit {r : Regs} (h : r.phase ≠ .bit) : r.txd = true := by
  cases hp : r.phase with
  | bit => exact absurd hp h
  | idle | gap => simp [Regs.txd, hp]

/-! ### Where a character or a gap stands in its count -/

/-- The bit periods that have passed in the present character, by `bitpos`, or in the present gap, by `gapcnt`. -/
def Regs.periods (r : Regs) : Nat :=
  match r.phase with
  | .idle => 0
  | .bit => r.bitpos.val
  | .gap => r.gapcnt.val

/-- The bit periods of a character (R86) and of a gap (R8). -/
def Phase.length : Phase → Nat
  | .idle => 0
  | .bit => 10
  | .gap => 50

theorem Regs.periods_of_bit {r : Regs} (h : r.phase = .bit) : r.periods = r.bitpos.val := by
  simp [Regs.periods, h]

theorem Regs.periods_of_gap {r : Regs} (h : r.phase = .gap) : r.periods = r.gapcnt.val := by
  simp [Regs.periods, h]

@[simp] theorem Regs.countTick_periods (r : Regs) : r.countTick.periods = r.periods := rfl

/-- The end of one of slots 0 to 8 counts one bit period more (R145). -/
theorem Regs.nextSlot_periods {r : Regs} (hp : r.phase = .bit) (hb : r.bitpos.val < 9) :
    r.nextSlot.periods = r.periods + 1 := by
  rw [periods_of_bit hp, periods_of_bit (r := r.nextSlot) hp]
  exact Fin.val_add_one_of_lt (by simpa [Fin.lt_def] using hb)

/-- The end of a bit period of the delay before the last counts one more (R148). -/
theorem Regs.countGap_periods {r : Regs} (hp : r.phase = .gap) (hg : r.gapcnt.val < 49) :
    r.countGap.periods = r.periods + 1 := by
  rw [periods_of_gap hp, periods_of_gap (r := r.countGap) hp]
  exact Fin.val_add_one_of_lt (by simpa [Fin.lt_def] using hg)

/-- The state stands in the cycle number `n`, from 0, of the character or of the gap (the phase `p`) of byte `k` of the frame
`f`. -/
structure InPhase (p : Phase) (bt : Nat) (k : Fin 5) (f : Frame) (n : Nat) (s : State) : Prop where
  legal : Legal s
  bitTicks : s.bitTicks = bt
  phase : s.core.phase = p
  idx : s.core.idx = k
  frame : s.core.frame = f
  elapsed : s.core.tick + bt * s.core.periods = n

section
variable {p : Phase} {bt : Nat} {k : Fin 5} {f : Frame} {n : Nat} {s : State}

/-- The first cycle of a character. -/
theorem inPhase_of_atByteStart (hl : Legal s) (h : AtByteStart s.core k) :
    InPhase .bit s.bitTicks k s.core.frame 0 s := by
  obtain ⟨hp, hi, hb, ht⟩ := h
  exact ⟨hl, rfl, hp, hi, rfl, by simp [Regs.periods_of_bit hp, hb, ht]⟩

/-- The first cycle of a gap. -/
theorem inPhase_of_atGapStart (hl : Legal s) (h : AtGapStart s.core k) :
    InPhase .gap s.bitTicks k s.core.frame 0 s := by
  obtain ⟨hp, hi, hg, ht⟩ := h
  exact ⟨hl, rfl, hp, hi, rfl, by simp [Regs.periods_of_gap hp, hg, ht]⟩

theorem InPhase.tick_lt (h : InPhase p bt k f n s) : s.core.tick < bt := by
  obtain ⟨ht, -⟩ := (Regs.legal_iff _ _).mp h.legal
  exact h.bitTicks ▸ ht

/-- The cycle's number gives both counters. -/
theorem InPhase.counters (h : InPhase p bt k f n s) : n / bt = s.core.periods ∧ n % bt = s.core.tick :=
  (Nat.div_mod_unique (Nat.zero_lt_of_lt h.tick_lt)).mpr ⟨h.elapsed, h.tick_lt⟩

/-- The last cycle of `L` bit periods is the last tick of the last of them. -/
theorem InPhase.last (h : InPhase p bt k f n s) {L : Nat} (hn : n + 1 = (L + 1) * bt) :
    s.core.periods = L ∧ s.core.tick = bt - 1 := by
  have hlt := h.tick_lt
  have hcount : (bt - 1) + bt * L = n := by
    rw [Nat.succ_mul, Nat.mul_comm] at hn
    omega
  obtain ⟨hdiv, hmod⟩ := (Nat.div_mod_unique (by omega)).mpr ⟨hcount, (by omega : bt - 1 < bt)⟩
  obtain ⟨hper, htick⟩ := h.counters
  exact ⟨hper.symm.trans hdiv, htick.symm.trans hmod⟩

/-- The end of a bit period adds `BIT_TICKS` to the count. -/
theorem InPhase.next_period (h : InPhase p bt k f n s) (ht : s.core.tick = s.bitTicks - 1) :
    bt * (s.core.periods + 1) = n + 1 := by
  have hlt := h.tick_lt
  have he := h.elapsed
  have hbt := h.bitTicks
  rw [Nat.mul_succ]
  omega

/-- Short of the last cycle of its phase, an edge without reset moves a character or a gap to its next cycle, whatever the
channel and the request port do (R144, R145, R148). -/
theorem InPhase.step (h : InPhase p bt k f n s) (hp : p ≠ .idle) (hr : s.pins.rst = false)
    (hn : n + 1 < p.length * bt) : ∃ t, step s = .next t ∧ InPhase p bt k f (n + 1) t := by
  obtain ⟨c, hc, hs⟩ := step_of_legal h.legal
  suffices hnext : c.phase = p ∧ c.idx = k ∧ c.frame = f ∧ c.tick + bt * c.periods = n + 1 by
    obtain ⟨hphase, hidx, hframe, helapsed⟩ := hnext
    exact ⟨_, hs, step_legal h.legal hs, h.bitTicks, hphase, hidx, hframe, helapsed⟩
  obtain rfl := h.phase
  cases hc.legalEdge h.legal with
  | reset hrst => simp [hr] at hrst
  | quiet _ hidle | errConfig _ hidle | errPort _ hidle | start _ hidle => exact absurd hidle hp
  | countTick => exact ⟨rfl, h.idx, h.frame, by rw [Regs.countTick_tick, Regs.countTick_periods, ← h.elapsed]; omega⟩
  | nextSlot _ hbit ht hb =>
    exact ⟨rfl, h.idx, h.frame, by simp [Regs.nextSlot_periods hbit hb, h.next_period ht]⟩
  | countGap _ hgap ht hg =>
    exact ⟨rfl, h.idx, h.frame, by simp [Regs.countGap_periods hgap hg, h.next_period ht]⟩
  | enterGap _ hbit ht hb | finish _ hbit ht hb =>
    have hnext := h.next_period ht
    simp only [Regs.periods_of_bit hbit, hb, hbit, Phase.length] at hnext hn
    omega
  | nextByte _ hgap ht hg | failWrite _ hgap ht hg =>
    have hnext := h.next_period ht
    simp only [Regs.periods_of_gap hgap, hg, hgap, Phase.length] at hnext hn
    omega

/-- From the first cycle of a character or a gap, a run without reset stands after `m` edges in the cycle number `m`, up to the
last one. -/
theorem reaches_inPhase (h : InPhase p bt k f 0 s) (hp : p ≠ .idle) {m : Nat} (hr : NoReset s m)
    (hm : m < p.length * bt) : ∃ t, Reaches m s t ∧ InPhase p bt k f m t :=
  reaches_of_noReset hr h fun n t hn hrst ht => ht.step hp hrst (by omega)

/-- From the first cycle of a character or a gap, a run without reset comes to the edge that ends it. -/
theorem reaches_last_of_inPhase (h : InPhase p bt k f 0 s) (hp : p ≠ .idle) (hr : NoReset s (p.length * bt)) :
    ∃ m t, m + 1 = p.length * bt ∧ Reaches m s t ∧ InPhase p bt k f m t ∧ t.pins = s.pinsAt m ∧
      t.pins.rst = false := by
  have hlen : 0 < p.length := by
    cases p with
    | idle => exact absurd rfl hp
    | bit | gap => decide
  have hpos : 0 < p.length * bt := Nat.mul_pos hlen (Nat.zero_lt_of_lt h.tick_lt)
  obtain ⟨m, hm⟩ : ∃ m, m + 1 = p.length * bt := ⟨_, Nat.sub_add_cancel hpos⟩
  obtain ⟨t, ht, hin⟩ := reaches_inPhase h hp (m := m) (fun e he => hr e (by omega)) (by omega)
  exact ⟨m, t, hm, ht, hin, reaches_pins ht, rst_of_reaches hr (by omega) ht⟩

/-! ### The edge that ends a character -/

/-- After the stop bit of byte `k` of the frame `f`: the byte counts as sent, and the gap starts or, after the checksum byte,
the transaction has completed with OK (R146, R147). -/
structure CharacterSent (r : Regs) (k : Fin 5) (f : Frame) : Prop where
  sentCount : r.sentCount.val = k.val + 1
  frame : r.frame = f
  gap : k.val < 4 → AtGapStart r k
  complete : k = 4 → r.phase = .idle ∧ r.status = .ok ∧ r.doneR = true

/-- The edge after the last cycle of a character ends its stop bit. -/
theorem InPhase.step_character_end (h : InPhase .bit bt k f n s) (hr : s.pins.rst = false) (hn : n + 1 = 10 * bt) :
    ∃ t, Machine.step s = .next t ∧ CharacterSent t.core k f := by
  refine ⟨_, step_of_bit h.legal hr h.phase, ?_⟩
  obtain ⟨hper, htick⟩ := h.last (L := 9) hn
  rw [Regs.periods_of_bit h.phase] at hper
  rw [← h.bitTicks] at htick
  simp only [State.advance_core, State.withCore_core]
  obtain rfl := h.idx
  obtain ⟨ht, -⟩ | ⟨-, hb, -⟩ | ⟨-, -, hi, he⟩ | ⟨-, -, hi, he⟩ := s.core.bitEdge_cases s.bitTicks
  · omega
  · omega
  · rw [he]
    exact ⟨rfl, h.frame, fun _ => ⟨rfl, rfl, rfl, rfl⟩, fun h4 => by simp [h4] at hi⟩
  · rw [he]
    exact ⟨by simp [hi], h.frame, fun hlt => by simp [hi] at hlt, fun _ => ⟨rfl, rfl, rfl⟩⟩

/-- A character from its first cycle to the edge that ends it. -/
theorem reaches_characterSent (hl : Legal s) (hk : AtByteStart s.core k) (hr : NoReset s (10 * s.bitTicks)) :
    ∃ t, Reaches (10 * s.bitTicks) s t ∧ CharacterSent t.core k s.core.frame := by
  obtain ⟨m, t, hm, ht, hin, -, hrst⟩ := reaches_last_of_inPhase (inPhase_of_atByteStart hl hk) (by decide) hr
  obtain ⟨u, hu, hsent⟩ := hin.step_character_end hrst hm
  have hm : m + 1 = 10 * s.bitTicks := hm
  exact ⟨u, hm ▸ reaches_snoc ht hu, hsent⟩

/-! ### The edge that ends a gap -/

/-- After the gap of byte `k` of the frame `f`, where the last edge sampled `c` on `chan_ok`: the next byte starts, or its write
has failed (R149, R150). -/
structure GapEnded (r : Regs) (k : Fin 5) (f : Frame) (c : Bool) : Prop where
  frame : r.frame = f
  sentCount : r.sentCount.val = k.val + 1
  result : if c then ∃ j : Fin 5, j.val = k.val + 1 ∧ AtByteStart r j
    else r.phase = .idle ∧ r.status = .errTx ∧ r.doneR = true

/-- The edge after the last cycle of a gap is the write check of the next byte. -/
theorem InPhase.step_gap_end (h : InPhase .gap bt k f n s) (hr : s.pins.rst = false) (hn : n + 1 = 50 * bt) :
    ∃ t, Machine.step s = .next t ∧ GapEnded t.core k f s.pins.chanOk := by
  refine ⟨_, step_of_gap h.legal hr h.phase, ?_⟩
  obtain ⟨hper, htick⟩ := h.last (L := 49) hn
  rw [Regs.periods_of_gap h.phase] at hper
  rw [← h.bitTicks] at htick
  obtain ⟨-, hgap, -⟩ := (Regs.legal_iff _ _).mp h.legal
  obtain ⟨hi, hcount⟩ := hgap h.phase
  simp only [State.advance_core, State.withCore_core]
  obtain rfl := h.idx
  obtain ⟨ht, -⟩ | ⟨-, hg, -⟩ | ⟨-, -, hc, he⟩ | ⟨-, -, hc, he⟩ := s.core.gapEdge_cases s.bitTicks s.pins.chanOk
  · omega
  · omega
  · rw [he, hc]
    exact ⟨h.frame, hcount, _, idx_add_one_val _ hi, rfl, rfl, rfl, rfl⟩
  · rw [he, hc]
    exact ⟨h.frame, rfl, rfl, rfl, rfl⟩

/-- A gap from its first cycle to the edge that ends it. -/
theorem reaches_gapEnded (hl : Legal s) (hk : AtGapStart s.core k) (hr : NoReset s (50 * s.bitTicks)) :
    ∃ t, Reaches (50 * s.bitTicks) s t ∧
      GapEnded t.core k s.core.frame (s.pinsAt (50 * s.bitTicks - 1)).chanOk := by
  obtain ⟨m, t, hm, ht, hin, hpins, hrst⟩ := reaches_last_of_inPhase (inPhase_of_atGapStart hl hk) (by decide) hr
  obtain ⟨u, hu, hend⟩ := hin.step_gap_end hrst hm
  have hm : m + 1 = 50 * s.bitTicks := hm
  rw [← hm, Nat.add_sub_cancel, ← hpins]
  exact ⟨u, reaches_snoc ht hu, hend⟩

end

/-! ### The statements -/

/-- Settles O54: the run stands in cycle `j * BIT_TICKS + c` of the character (`reaches_inPhase`), whose number gives the slot
and the tick, and the frame, which is kept, gives the level; `reaches_characterSent` is its end. -/
theorem characterIsSentWhole : Obligations.CharacterIsSentWhole := by
  unfold Obligations.CharacterIsSentWhole
  intro s k hl hk hr
  refine ⟨fun j c hc => ?_, ?_⟩
  · have hlt : j.val * s.bitTicks + c < 10 * s.bitTicks := by
      calc j.val * s.bitTicks + c < (j.val + 1) * s.bitTicks := by rw [Nat.succ_mul]; omega
        _ ≤ 10 * s.bitTicks := Nat.mul_le_mul_right _ j.isLt
    obtain ⟨t, ht, hin⟩ := reaches_inPhase (inPhase_of_atByteStart hl hk) (by decide)
      (fun e he => hr e (by omega)) hlt
    obtain ⟨hdiv, hmod⟩ := hin.counters
    rw [Nat.mul_comm, Nat.mul_add_mod, Nat.mod_eq_of_lt hc] at hmod
    rw [Nat.mul_comm, Nat.mul_add_div (by omega), Nat.div_eq_of_lt hc, Nat.add_zero,
      Regs.periods_of_bit hin.phase] at hdiv
    have hslot : t.core.bitpos = j := Fin.ext hdiv.symm
    refine ⟨t, ht, hin.phase, hin.idx, hslot, hmod.symm, hin.frame, ?_⟩
    rw [Regs.txd_of_bit hin.phase, hin.idx, hslot, Regs.selByte_of_frame_eq hin.frame]
  · obtain ⟨t, ht, hsent⟩ := reaches_characterSent hl hk hr
    exact ⟨t, ht, hsent.sentCount, hsent.frame, hsent.gap, hsent.complete⟩

/-- Settles O55: the run stands in cycle `e` of the gap (`reaches_inPhase`), whose number gives both timers;
`reaches_gapEnded` is its end. -/
theorem gapLastsFiftyBitPeriods : Obligations.GapLastsFiftyBitPeriods := by
  unfold Obligations.GapLastsFiftyBitPeriods
  intro s k hl hk hr
  refine ⟨fun e he => ?_, ?_⟩
  · obtain ⟨t, ht, hin⟩ := reaches_inPhase (inPhase_of_atGapStart hl hk) (by decide)
      (fun i hi => hr i (by omega)) he
    obtain ⟨hdiv, hmod⟩ := hin.counters
    rw [Regs.periods_of_gap hin.phase] at hdiv
    exact ⟨t, ht, hin.phase, hin.idx, hdiv.symm, hmod.symm, Regs.txd_of_ne_bit (by simp [hin.phase])⟩
  · obtain ⟨t, ht, hend⟩ := reaches_gapEnded hl hk hr
    exact ⟨t, ht, hend.frame, hend.sentCount, hend.result⟩

end Sys2Proof.Machine
end

section
/-! PROOFS. Request words (R80 to R84, R88, R90, R91, R104): a word is its three fields, the decoder and the encoder are inverse
to each other, and each field counts independently of the others. -/

namespace Sys2Proof.Machine

/-! ### The fields of a word -/

/-- A word is its three fields side by side (R81). -/
theorem append_fields (w : ReqWord) : speedField w ++ brightField w ++ modeField w = w := by
  have hlow : brightField w ++ modeField w = w.extractLsb' 0 6 := BitVec.extractLsb'_append_extractLsb'_eq_extractLsb' rfl
  have hall : w.extractLsb' 6 3 ++ w.extractLsb' 0 6 = w.extractLsb' 0 9 :=
    BitVec.extractLsb'_append_extractLsb'_eq_extractLsb' rfl
  rw [BitVec.append_assoc, BitVec.cast_eq, hlow, speedField, hall, BitVec.extractLsb'_eq_self]

/-- The mode code of a word as a number. -/
theorem modeField_toNat (w : ReqWord) : (modeField w).toNat = w.toNat % 8 := by
  simp [modeField, BitVec.extractLsb'_toNat]

/-- The brightness level code of a word as a number. -/
theorem brightField_toNat (w : ReqWord) : (brightField w).toNat = w.toNat / 8 % 8 := by
  simp [brightField, BitVec.extractLsb'_toNat, Nat.shiftRight_eq_div_pow]

/-- The speed level code of a word as a number: no bit stands above its field (R80). -/
theorem speedField_toNat (w : ReqWord) : (speedField w).toNat = w.toNat / 64 := by
  have hw : w.toNat < 512 := w.isLt
  simp only [speedField, BitVec.extractLsb'_toNat, Nat.shiftRight_eq_div_pow]
  omega

/-! ### The fields of an instruction's word -/

/-- The family of `Laws.Encoding` holds of every instruction. -/
theorem encode_statement (i : Instr) : Laws.Encoding.Statement i := by
  cases i with
  | sendOff b s => exact Laws.Encoding.sendOff b s
  | sendAuto b s => exact Laws.Encoding.sendAuto b s
  | sendRainbow b s => exact Laws.Encoding.sendRainbow b s
  | sendBreathing b s => exact Laws.Encoding.sendBreathing b s
  | sendCycle b s => exact Laws.Encoding.sendCycle b s

@[simp] theorem modeField_encode (i : Instr) : modeField (encode i) = modeCode i.mode := by
  obtain ⟨h, -⟩ := encode_statement i
  exact h

@[simp] theorem brightField_encode (i : Instr) : brightField (encode i) = i.bright := by
  obtain ⟨-, h, -⟩ := encode_statement i
  exact h

@[simp] theorem speedField_encode (i : Instr) : speedField (encode i) = i.speed := by
  obtain ⟨-, -, h, -⟩ := encode_statement i
  exact h

@[simp] theorem validWord_encode (i : Instr) : validWord (encode i) = i.wellFormed := by
  obtain ⟨-, -, -, h⟩ := encode_statement i
  exact h

/-! ### The decoder and the encoder are inverse to each other -/

/-- The listing of R82, read in both directions. -/
theorem modeOfCode_eq_some_iff (c : Code) (m : Mode) : modeOfCode c = some m ↔ modeCode m = c := by
  revert c; cases m <;> decide

@[simp] theorem instrOf_fields (i : Instr) : instrOf i.mode i.bright i.speed = i := by cases i <;> rfl

/-- A word decodes to an instruction exactly when it is that instruction's word (R81, R88). -/
theorem decode_eq_ok_iff (w : ReqWord) (i : Instr) : decode w = .ok i ↔ encode i = w := by
  constructor
  · intro h
    cases hm : modeOfCode (modeField w) with
    | none => simp [decode_of_none w hm] at h
    | some m =>
      obtain rfl : _ = i := Except.ok.inj ((decode_of_mode w m hm).symm.trans h)
      rw [modeOfCode_eq_some_iff] at hm
      simp [encode, hm, append_fields]
  · rintro rfl
    have hm : modeOfCode (modeField (encode i)) = some i.mode := by simp [modeOfCode_eq_some_iff]
    simp [decode_of_mode _ _ hm]

/-- A word decodes exactly when its mode code is a mode (R84, R88). -/
theorem exists_decode_eq_ok_iff (w : ReqWord) : (∃ i, decode w = .ok i) ↔ (modeField w).toNat ≤ 4 := by
  rw [← decide_eq_true_iff (p := _ ≤ _), ← modeOfCode_isSome]
  cases hm : modeOfCode (modeField w) with
  | none => simp [decode_of_none w hm]
  | some m => simp [decode_of_mode w m hm]

/-- A word whose mode code is no mode is rejected by that code (R88). -/
theorem modeField_le_or_decode_eq_error (w : ReqWord) :
    (modeField w).toNat ≤ 4 ∨ decode w = .error (.invalidMode (modeField w)) := by
  cases hm : modeOfCode (modeField w) with
  | none => exact .inr (decode_of_none w hm)
  | some m => exact .inl ((exists_decode_eq_ok_iff w).mp ⟨_, decode_of_mode w m hm⟩)

/-- A word is valid exactly when it is a well-formed instruction's word (R84, R90). -/
theorem validWord_iff_exists_encode (w : ReqWord) : validWord w = true ↔ ∃ i, i.wellFormed = true ∧ encode i = w := by
  constructor
  · intro hw
    have hmode : (modeField w).toNat ≤ 4 := by
      obtain ⟨hm, -⟩ := Bool.and_eq_true_iff.mp (validWord_eq w ▸ hw)
      rwa [modeOfCode_isSome, decide_eq_true_iff] at hm
    obtain ⟨i, hi⟩ := (exists_decode_eq_ok_iff w).mpr hmode
    obtain rfl := (decode_eq_ok_iff w i).mp hi
    exact ⟨i, (validWord_encode i).symm.trans hw, rfl⟩
  · rintro ⟨i, hi, rfl⟩
    rw [validWord_encode, hi]

/-- Settles O2: encoding and decoding are inverse to each other (`decode_eq_ok_iff`), and an instruction's word is valid exactly
when the instruction is well formed (`validWord_encode`). -/
theorem decodeAndEncodeAgree : Obligations.DecodeAndEncodeAgree := by
  unfold Obligations.DecodeAndEncodeAgree
  exact ⟨fun i => (decode_eq_ok_iff _ i).mpr rfl, fun w i => (decode_eq_ok_iff w i).mp, exists_decode_eq_ok_iff,
    modeField_le_or_decode_eq_error, validWord_iff_exists_encode⟩

/-- Settles O1: the first five words are the encodings of their instructions, and the mode codes of the last three stand for no
mode. -/
theorem knownWordsDecode : Obligations.KnownWordsDecode := by
  unfold Obligations.KnownWordsDecode
  simp only [decode_eq_ok_iff]
  exact ⟨rfl, rfl, rfl, rfl, rfl, decode_of_none _ rfl, decode_of_none _ rfl, decode_of_none _ rfl⟩

/-! ### The assembler -/

/-- An operand assembles to a level code exactly when its level is 1 to 5, an omitted one being level 3 (R90, R91). -/
theorem assembleLevel_eq_some_iff (l : Option Nat) (c : Code) :
    assembleLevel l = some c ↔ (1 ≤ l.getD 3 ∧ l.getD 3 ≤ 5) ∧ BitVec.ofNat 3 (l.getD 3) = c := by
  rw [assembleLevel, defaultLevel, Option.ite_none_right_eq_some, Option.some.injEq]

/-- A line assembles to the word of the instruction that its two level codes give (R90). -/
theorem assemble_eq_some_iff (m : Mode) (b s : Option Nat) (w : ReqWord) :
    assemble ⟨m, b, s⟩ = some w ↔
      ∃ bc sc, assembleLevel b = some bc ∧ assembleLevel s = some sc ∧ encode (instrOf m bc sc) = w := by
  cases hb : assembleLevel b with
  | none => simp [assemble, assembleInstr, hb]
  | some bc => cases hs : assembleLevel s <;> simp [assemble, assembleInstr, hb, hs]

/-- Settles O3: both operands are levels (`assembleLevel_eq_some_iff`), and a word is the instruction's exactly when it decodes
to it (`decode_eq_ok_iff`). -/
theorem assemblerEncodesItsLine : Obligations.AssemblerEncodesItsLine := by
  unfold Obligations.AssemblerEncodesItsLine
  refine ⟨fun m b s w => ?_, rfl, rfl⟩
  simp only [assemble_eq_some_iff, assembleLevel_eq_some_iff, decode_eq_ok_iff]
  constructor
  · rintro ⟨_, _, ⟨hb, rfl⟩, ⟨hs, rfl⟩, hw⟩
    exact ⟨hb, hs, hw⟩
  · rintro ⟨hb, hs, hw⟩
    exact ⟨_, _, ⟨hb, rfl⟩, ⟨hs, rfl⟩, hw⟩

/-! ### The valid words and their number -/

/-- A level code that is a level, on numbers (R83). -/
theorem levelValid_iff (c : Code) : levelValid c = true ↔ 1 ≤ c.toNat ∧ c.toNat ≤ 5 := by
  simp [levelValid]

/-- The frame of operands exists exactly when both are levels (R104, R108). -/
theorem frameOf_isSome (m : Mode) (b s : Code) : (frameOf m b s).isSome = (levelValid b && levelValid s) := by
  cases h : (levelValid b && levelValid s) with
  | false => simp [frameOf_invalid m b s h]
  | true =>
    obtain ⟨hb, hs⟩ := Bool.and_eq_true_iff.mp h
    simp [frameOf_valid m b s hb hs]

/-- The encoder has a frame exactly for the valid words (R108). -/
theorem encodeRequest_isSome (w : ReqWord) : (encodeRequest w).isSome = validWord w := by
  cases hm : modeOfCode (modeField w) with
  | none => simp [encodeRequest, hm, validWord_of_none hm]
  | some m => simp [encodeRequest, hm, validWord_of_mode hm, frameOf_isSome]

/-- The validity predicate on the fields as numbers (R84, R104). -/
theorem validWord_iff_toNat (w : ReqWord) : validWord w = true ↔
    w.toNat % 8 ≤ 4 ∧ (1 ≤ w.toNat / 8 % 8 ∧ w.toNat / 8 % 8 ≤ 5) ∧ (1 ≤ w.toNat / 64 ∧ w.toNat / 64 ≤ 5) := by
  rw [validWord, Bool.and_assoc, Bool.and_eq_true, Bool.and_eq_true, decide_eq_true_iff, levelValid_iff, levelValid_iff,
    modeField_toNat, brightField_toNat, speedField_toNat]

/-- A number that is a mode code of a mode (R82). -/
def isModeNumber (n : Nat) : Bool := decide (n ≤ 4)

/-- A number that is a level (R83). -/
def isLevelNumber (n : Nat) : Bool := decide (1 ≤ n ∧ n ≤ 5)

/-- The validity of a word by its number, whose octal digits are the fields (R81, R84). -/
theorem validWord_ofNat {n : Nat} (h : n < 512) :
    validWord (BitVec.ofNat 9 n) = (isModeNumber (n % 8) && (isLevelNumber (n / 8 % 8) && isLevelNumber (n / 8 / 8))) := by
  rw [Bool.eq_iff_iff, validWord_iff_toNat, BitVec.toNat_ofNat, Nat.mod_eq_of_lt h, Nat.div_div_eq_div_mul]
  simp [isModeNumber, isLevelNumber]

/-- Of the numbers below `8 * k`, those whose lowest octal digit meets `p` and whose other digits, as one number, meet `q` are
as many as the digits that meet `p` times the numbers below `k` that meet `q`. -/
theorem countP_octal (p q : Nat → Bool) (k : Nat) :
    (List.range (8 * k)).countP (fun n => p (n % 8) && q (n / 8)) = (List.range 8).countP p * (List.range k).countP q := by
  induction k with
  | zero => rfl
  | succ k ih =>
    have hblock : (List.range 8).countP ((fun n => p (n % 8) && q (n / 8)) ∘ (8 * k + ·)) =
        (List.range 8).countP fun d => p d && q k := by
      refine List.countP_congr fun d hd => ?_
      have hd : d < 8 := List.mem_range.mp hd
      have hmod : (8 * k + d) % 8 = d := by omega
      have hdiv : (8 * k + d) / 8 = k := by omega
      simp [hmod, hdiv]
    rw [Nat.mul_succ, List.range_add, List.countP_append, ih, List.countP_map, hblock, List.range_succ (n := k),
      List.countP_append, Nat.mul_add]
    cases hq : q k <;> simp [hq]

/-- There are 125 valid words, five codes in each of the three fields (R84). -/
theorem validWord_count : ((List.range 512).filter fun n => validWord (BitVec.ofNat 9 n)).length = 125 := by
  have hmodes : (List.range 8).countP isModeNumber = 5 := by decide
  have hlevels : (List.range 8).countP isLevelNumber = 5 := by decide
  calc ((List.range 512).filter fun n => validWord (BitVec.ofNat 9 n)).length
    _ = (List.range 512).countP fun n => validWord (BitVec.ofNat 9 n) := List.countP_eq_length_filter.symm
    _ = (List.range (8 * (8 * 8))).countP fun n =>
          isModeNumber (n % 8) && (isLevelNumber (n / 8 % 8) && isLevelNumber (n / 8 / 8)) :=
        List.countP_congr fun n hn => by rw [validWord_ofNat (List.mem_range.mp hn)]
    _ = 5 * (5 * 5) := by
        rw [countP_octal isModeNumber fun n => isLevelNumber (n % 8) && isLevelNumber (n / 8), countP_octal, hmodes, hlevels]

/-- Settles O6: the fields of a word as numbers (`validWord_iff_toNat`), the frame's existence field by field
(`encodeRequest_isSome`), and the product of the fields' counts (`validWord_count`). -/
theorem validWordsAreThoseWithAFrame : Obligations.ValidWordsAreThoseWithAFrame := by
  unfold Obligations.ValidWordsAreThoseWithAFrame
  exact ⟨validWord_iff_toNat, encodeRequest_isSome, validWord_count⟩

end Sys2Proof.Machine
end

section
/-! PROOFS. The slots of a character and the line at mark (R86, R87). -/

namespace Sys2Proof.Machine

/-- Slot 0 is the start bit (R87). -/
theorem charSlot_start (v : Byte) : charSlot v 0 = false := rfl

/-- Slot 9 is the stop bit (R87). -/
theorem charSlot_stop (v : Byte) : charSlot v 9 = true := rfl

/-- Slots 1 to 8 are the data bits, least significant first (R87). -/
theorem charSlot_data (v : Byte) (j : Fin 10) (h1 : 1 ≤ j.val) (h8 : j.val ≤ 8) : charSlot v j = v.getLsbD (j.val - 1) := by
  rw [charSlot, if_neg (by omega), if_pos h8]

/-- Settles O10: the line outside BIT is `Regs.txd_of_ne_bit`. -/
theorem characterSlots : Obligations.CharacterSlots := by
  unfold Obligations.CharacterSlots
  exact ⟨fun v => ⟨charSlot_start v, charSlot_stop v, charSlot_data v⟩, by decide, by decide, fun _ => Regs.txd_of_ne_bit⟩

end Sys2Proof.Machine
end

section
/-! PROOFS. The tables and the checksum of the frame encoder (R100 to R109): the level table on numbers, the sum of a frame's
bytes, and the frame of valid operands as its closed form. -/

namespace Sys2Proof.Machine

open Sys2Proof.Safety

/-! ### The two tables -/

/-- Settles O4, entry by entry of the table of R100. -/
theorem modeTableEntries : Obligations.ModeTableEntries := by
  unfold Obligations.ModeTableEntries
  exact ⟨rfl, rfl, rfl, rfl, rfl, rfl, rfl, rfl⟩

/-- Every mode byte is 1 to 5 (R100). -/
theorem modeByte_toNat_range (m : Mode) : 1 ≤ (modeByte m).toNat ∧ (modeByte m).toNat ≤ 5 := by
  cases m <;> decide

@[simp] theorem u8_toNat (x : Nat) : (u8 x).toNat = x % 256 := BitVec.toNat_ofNat x 8

@[simp] theorem u8_of_toNat (v : Byte) : u8 v.toNat = v := BitVec.ofNat_toNat 8 v

/-- The formula of R102 does not wrap. -/
theorem levelByFormula_toNat (c : Code) : (levelByFormula c).toNat = 6 - c.toNat := by
  rw [levelByFormula, u8_toNat]
  omega

/-- The table has an entry exactly at the levels, and the entry is the formula's value (R101, R102). -/
theorem levelTable_eq_some_iff (c : Code) (v : Byte) :
    levelTable c = some v ↔ levelValid c = true ∧ levelByFormula c = v := by
  cases hc : levelValid c with
  | false => simp [levelTable_eq_none c hc]
  | true => simp [levelTable_eq_some c hc]

/-- The table's entries on numbers. -/
theorem levelTable_eq_some_iff_toNat (c : Code) (v : Byte) :
    levelTable c = some v ↔ (1 ≤ c.toNat ∧ c.toNat ≤ 5) ∧ v.toNat = 6 - c.toNat := by
  rw [levelTable_eq_some_iff, levelValid_iff, ← BitVec.toNat_inj, levelByFormula_toNat, eq_comm (a := v.toNat)]

theorem levelTable_ne_none_iff (c : Code) : levelTable c ≠ none ↔ 1 ≤ c.toNat ∧ c.toNat ≤ 5 := by
  rw [Option.ne_none_iff_exists', ← levelValid_iff]
  simp [levelTable_eq_some_iff]

/-- Settles O5: every clause is arithmetic on the table's entries as numbers (`levelTable_eq_some_iff_toNat`). -/
theorem levelTableIsSixMinusLevel : Obligations.LevelTableIsSixMinusLevel := by
  unfold Obligations.LevelTableIsSixMinusLevel
  refine ⟨levelTable_ne_none_iff, fun c v h => ?_, fun c d hc hcd => ?_, fun v h1 h5 => ?_⟩
  · obtain ⟨-, hformula⟩ := (levelTable_eq_some_iff c v).mp h
    obtain ⟨hc, hv⟩ := (levelTable_eq_some_iff_toNat c v).mp h
    refine ⟨hv, by omega, by omega, hformula.symm, ?_⟩
    rw [levelTable_eq_some_iff_toNat, BitVec.toNat_setWidth, BitVec.toNat_setWidth]
    omega
  · obtain ⟨v, hv⟩ := Option.ne_none_iff_exists'.mp hc
    obtain ⟨hc, hvc⟩ := (levelTable_eq_some_iff_toNat c v).mp hv
    obtain ⟨hd, hvd⟩ := (levelTable_eq_some_iff_toNat d v).mp (hcd ▸ hv)
    exact BitVec.eq_of_toNat_eq (by omega)
  · refine ⟨BitVec.ofNat 3 (6 - v.toNat), ?_⟩
    rw [levelTable_eq_some_iff_toNat, BitVec.toNat_ofNat]
    omega

/-! ### The checksum -/

/-- Settles O7: the checksum is `u8` of the sum by definition, and the accumulator is `accumulate_eq_checksum`. -/
theorem checksumIsTheSumModulo256 : Obligations.ChecksumIsTheSumModulo256 := by
  unfold Obligations.ChecksumIsTheSumModulo256
  exact fun mb bb sb => ⟨u8_toNat (frameSum mb bb sb), accumulate_eq_checksum mb bb sb⟩

section
variable {M : Nat} {b s : Code}

/-- The sum of the first four bytes of the frame that R120 to R124 write for mode byte `M` (R106). -/
theorem unreducedSum_sentFrame (hM : M < 256) :
    unreducedSum (sentFrame M b s) = 0xFA + M + (6 - b.toNat) + (6 - s.toNat) := by
  have hbegin : beginByte.toNat = 0xFA := rfl
  simp only [unreducedSum, sentFrame, frameSum, u8_toNat, hbegin]
  omega

/-- The closed form `u8(M + 6 - b - s)` is the checksum of the frame's bytes: BEGIN and the two sixes make up one wrap (R106). -/
theorem sentFrame_checksum (hM : M < 256) (hb : levelValid b = true) (hs : levelValid s = true) :
    (sentFrame M b s).checksum = u8 (unreducedSum (sentFrame M b s)) := by
  rw [levelValid_iff] at hb hs
  rw [unreducedSum_sentFrame hM]
  apply BitVec.eq_of_toNat_eq
  rw [u8_toNat, sentFrame, BitVec.toNat_ofInt]
  omega

end

/-! ### The frame of valid operands -/

/-- The frame of valid operands is the one that R120 to R124 write out (R108). -/
theorem frameOf_eq_sentFrame (m : Mode) {b s : Code} (hb : levelValid b = true) (hs : levelValid s = true) :
    frameOf m b s = some (sentFrame (modeByte m).toNat b s) := by
  have hmode : u8 (modeByte m).toNat = modeByte m := u8_of_toNat _
  have hsum := sentFrame_checksum (modeByte m).isLt hb hs
  simp only [unreducedSum, sentFrame, hmode] at hsum
  rw [frameOf_valid m b s hb hs, sentFrame, hmode, hsum]
  rfl

/-- There is a frame exactly for two levels, and it is the one that R120 to R124 write out (R104, R108). -/
theorem frameOf_eq_some_iff (m : Mode) (b s : Code) (f : Frame) :
    frameOf m b s = some f ↔
      (levelValid b = true ∧ levelValid s = true) ∧ sentFrame (modeByte m).toNat b s = f := by
  rw [← Bool.and_eq_true]
  cases h : (levelValid b && levelValid s) with
  | false => simp [frameOf_invalid m b s h]
  | true =>
    obtain ⟨hb, hs⟩ := Bool.and_eq_true_iff.mp h
    simp [frameOf_eq_sentFrame m hb hs]

section
variable {m : Mode} {b s : Code} {f : Frame}

/-- The operands of a frame are levels, on numbers (R83, R104). -/
theorem levels_of_frameOf (h : frameOf m b s = some f) :
    (1 ≤ b.toNat ∧ b.toNat ≤ 5) ∧ (1 ≤ s.toNat ∧ s.toNat ≤ 5) := by
  obtain ⟨⟨hb, hs⟩, -⟩ := (frameOf_eq_some_iff m b s f).mp h
  exact ⟨(levelValid_iff b).mp hb, (levelValid_iff s).mp hs⟩

/-- The sum of a frame's first four bytes (R105, R106). -/
theorem unreducedSum_of_frameOf (h : frameOf m b s = some f) :
    unreducedSum f = 0xFA + (modeByte m).toNat + (6 - b.toNat) + (6 - s.toNat) := by
  obtain ⟨-, rfl⟩ := (frameOf_eq_some_iff m b s f).mp h
  exact unreducedSum_sentFrame (modeByte m).isLt

/-- Byte 4 of a frame is the sum of the bytes before it modulo 256 (R105). -/
theorem checksum_of_frameOf (h : frameOf m b s = some f) : f.checksum = u8 (unreducedSum f) := by
  obtain ⟨⟨hb, hs⟩, rfl⟩ := (frameOf_eq_some_iff m b s f).mp h
  exact sentFrame_checksum (modeByte m).isLt hb hs

/-- The sum of every frame lies in 0xFD to 0x109 (R106). -/
theorem unreducedSum_range (h : frameOf m b s = some f) : 0xFD ≤ unreducedSum f ∧ unreducedSum f ≤ 0x109 := by
  have hsum := unreducedSum_of_frameOf h
  have hm := modeByte_toNat_range m
  have hlevels := levels_of_frameOf h
  omega

/-- The checksum of every frame is 0xFD to 0xFF or 0x00 to 0x09, and the latter where the sum wraps (R106). -/
theorem checksum_range (h : frameOf m b s = some f) :
    (f.checksum.toNat ≤ 9 ∨ 0xFD ≤ f.checksum.toNat) ∧ (256 ≤ unreducedSum f ↔ f.checksum.toNat ≤ 9) := by
  have hrange := unreducedSum_range h
  rw [checksum_of_frameOf h, u8_toNat]
  omega

end

/-! ### The checksums that a mode reaches -/

/-- Two levels add up to each number from 2 to 10. -/
theorem exists_levels_of_sum {k : Nat} (h2 : 2 ≤ k) (h10 : k ≤ 10) :
    ∃ b s : Code, (levelValid b = true ∧ levelValid s = true) ∧ b.toNat + s.toNat = k := by
  refine ⟨BitVec.ofNat 3 (k / 2), BitVec.ofNat 3 (k - k / 2), ?_⟩
  simp only [levelValid_iff, BitVec.toNat_ofNat]
  omega

/-- A mode's checksums are the values of the closed form at the sums 2 to 10 of two levels (R106). -/
theorem checksum_reached_iff (m : Mode) (v : Byte) :
    (∃ b s f, frameOf m b s = some f ∧ f.checksum = v) ↔
      ∃ k, (2 ≤ k ∧ k ≤ 10) ∧ v.toNat = (0x106 + (modeByte m).toNat - k) % 256 := by
  constructor
  · rintro ⟨b, s, f, h, rfl⟩
    obtain ⟨hb, hs⟩ := levels_of_frameOf h
    refine ⟨b.toNat + s.toNat, by omega, ?_⟩
    rw [checksum_of_frameOf h, u8_toNat, unreducedSum_of_frameOf h]
    omega
  · rintro ⟨k, ⟨h2, h10⟩, hv⟩
    obtain ⟨b, s, ⟨hb, hs⟩, rfl⟩ := exists_levels_of_sum h2 h10
    have h := frameOf_eq_sentFrame m hb hs
    rw [levelValid_iff] at hb hs
    refine ⟨b, s, _, h, BitVec.eq_of_toNat_eq ?_⟩
    rw [checksum_of_frameOf h, u8_toNat, unreducedSum_of_frameOf h, hv]
    omega

/-- A mode's checksums as a range that begins at `0xFC + M` and ends, round through 0x00 where it wraps, at `M + 4` (R106). -/
theorem checksum_reached_iff_range (m : Mode) (v : Byte) :
    (∃ b s f, frameOf m b s = some f ∧ f.checksum = v) ↔
      0xFC + (modeByte m).toNat ≤ v.toNat ∨ v.toNat ≤ 4 + (modeByte m).toNat ∧ (modeByte m).toNat ≤ v.toNat + 4 := by
  have hm := modeByte_toNat_range m
  have hv := v.isLt
  rw [checksum_reached_iff]
  constructor
  · rintro ⟨k, hk, h⟩
    omega
  · intro h
    exact ⟨(0x106 + (modeByte m).toNat - v.toNat) % 256, by omega⟩

/-- Settles O8: the closed form and the range of one frame, the checksums of a mode from the sums of two levels
(`checksum_reached_iff`), and the wrapping pairs counted among the 25. -/
theorem checksumClosedFormAndRange : Obligations.ChecksumClosedFormAndRange := by
  unfold Obligations.ChecksumClosedFormAndRange
  refine ⟨fun m b s f h => ?_, fun m v => ?_, fun m => ?_⟩
  · have hsum := unreducedSum_of_frameOf h
    have hlevels := levels_of_frameOf h
    obtain ⟨hlow, hhigh⟩ := unreducedSum_range h
    obtain ⟨hrange, hwraps⟩ := checksum_range h
    have hclosed : f.checksum = BitVec.ofInt 8 (((modeByte m).toNat : Int) + 6 - b.toNat - s.toNat) := by
      obtain ⟨-, rfl⟩ := (frameOf_eq_some_iff m b s f).mp h
      rfl
    exact ⟨hsum ▸ checksum_of_frameOf h, hclosed, hsum, hlow, hhigh, hrange, by omega, hwraps⟩
  · have hv := v.isLt
    rw [checksum_reached_iff_range]
    cases m <;> simp only [modeByte, BitVec.reduceToNat] <;> omega
  · cases m <;> decide

/-! ### The bytes of a request's frame -/

theorem frameBytes_inj {f g : Frame} : frameBytes f = frameBytes g ↔ f = g := by
  cases f
  cases g
  simp [frameBytes]

/-- A request word's bytes are those of the frame of its fields (R108). -/
theorem encodeRequest_eq_some_iff (w : ReqWord) (l : List Byte) :
    encodeRequest w = some l ↔ ∃ m f, modeOfCode (modeField w) = some m ∧
      frameOf m (brightField w) (speedField w) = some f ∧ frameBytes f = l := by
  cases hm : modeOfCode (modeField w) <;> simp [encodeRequest, hm]

/-- A frame's bytes 1 to 3 are its table entries (R85, R108). -/
theorem frame_fields_of_frameOf {m : Mode} {b s : Code} {f : Frame} (h : frameOf m b s = some f) :
    f.mode = modeByte m ∧ levelTable b = some f.bright ∧ levelTable s = some f.speed := by
  obtain ⟨⟨hb, hs⟩, rfl⟩ := (frameOf_eq_some_iff m b s f).mp h
  exact ⟨u8_of_toNat _, levelTable_eq_some b hb, levelTable_eq_some s hs⟩

/-- Bytes 1 to 3 of a frame are 1 to 5 (R100, R102). -/
theorem frame_bytes_range {m : Mode} {b s : Code} {f : Frame} (h : frameOf m b s = some f) :
    (1 ≤ f.mode.toNat ∧ f.mode.toNat ≤ 5) ∧ (1 ≤ f.bright.toNat ∧ f.bright.toNat ≤ 5) ∧
      (1 ≤ f.speed.toNat ∧ f.speed.toNat ≤ 5) := by
  obtain ⟨hmode, hbright, hspeed⟩ := frame_fields_of_frameOf h
  have hm := modeByte_toNat_range m
  rw [levelTable_eq_some_iff_toNat] at hbright hspeed
  rw [hmode]
  omega

/-- A byte of one of the ranges of R109 is not BEGIN. -/
theorem ne_begin_of_range {v : Byte} (h : v.toNat ≤ 9 ∨ 0xFD ≤ v.toNat) : v ≠ 0xFA := by
  rintro rfl
  simp at h

/-- Settles O9: bytes 1 to 3 are 1 to 5 (`frame_bytes_range`) and the checksum misses 0xFA (`checksum_range`). -/
theorem beginStandsOnlyAtOffsetZero : Obligations.BeginStandsOnlyAtOffsetZero := by
  unfold Obligations.BeginStandsOnlyAtOffsetZero
  intro w l h
  obtain ⟨m, f, -, hf, rfl⟩ := (encodeRequest_eq_some_iff w l).mp h
  obtain ⟨hmode, hbright, hspeed⟩ := frame_bytes_range hf
  obtain ⟨hsum, -⟩ := checksum_range hf
  have hne : f.mode ≠ 0xFA ∧ f.bright ≠ 0xFA ∧ f.speed ≠ 0xFA ∧ f.checksum ≠ 0xFA :=
    ⟨ne_begin_of_range (by omega), ne_begin_of_range (by omega), ne_begin_of_range (by omega), ne_begin_of_range hsum⟩
  refine ⟨rfl, rfl, ?_, ?_, ?_⟩
  · simp [frameBytes, hmode, hbright, hspeed]
  · simpa [frameBytes] using hsum
  · simpa [frameBytes] using hne

end Sys2Proof.Machine
end

section
/-! PROOFS. The accepting edge (R110) and the five SEND instructions as that edge (R120 to R124): what it writes, what it
leaves, and its two exceptions (R182, R183, R186). -/

namespace Sys2Proof.Machine

open Sys2Proof.Safety

/-! ### Register writes as the statements write them out -/

theorem Regs.raise_eq_ended (r : Regs) (e : Status) (n : Fin 6) : r.raise e n = ended r e n := rfl

theorem Regs.start_eq_started (r : Regs) (f : Frame) : r.start f = started r f := rfl

/-! ### The step at an accepting edge -/

/-- A word that has a frame is valid (R104, R108). -/
theorem validWord_of_encodeRequest {w : ReqWord} {l : List Byte} (h : encodeRequest w = some l) : validWord w = true := by
  rw [← encodeRequest_isSome, h, Option.isSome_some]

section
variable {s : State}

/-- The step that accepts an invalid word (R182). -/
theorem step_of_invalid_request (hl : Legal s) (hr : s.pins.rst = false) (hp : s.core.phase = .idle)
    (hv : s.pins.reqValid = true) (hw : validWord s.pins.reqWord = false) :
    step s = .next (s.withCore (ended s.core .errConfig 0)).advance := by
  obtain ⟨c, hc, h⟩ := step_of_legal hl
  rw [h, ← Regs.raise_eq_ended]
  cases hc.legalEdge hl <;> simp_all

/-- The step that accepts a valid word with the channel down (R183). -/
theorem step_of_channel_down (hl : Legal s) (hr : s.pins.rst = false) (hp : s.core.phase = .idle)
    (hv : s.pins.reqValid = true) (hw : validWord s.pins.reqWord = true) (hc : s.pins.chanOk = false) :
    step s = .next (s.withCore (ended s.core .errPort 0)).advance := by
  obtain ⟨c, hc, h⟩ := step_of_legal hl
  rw [h, ← Regs.raise_eq_ended]
  cases hc.legalEdge hl <;> simp_all

/-- The step that accepts a word with a frame, the channel up (R110, third branch). -/
theorem step_of_start (hl : Legal s) (hr : s.pins.rst = false) (hp : s.core.phase = .idle)
    (hv : s.pins.reqValid = true) (hc : s.pins.chanOk = true) {f : Frame}
    (hf : encodeRequest s.pins.reqWord = some (frameBytes f)) :
    step s = .next (s.withCore (started s.core f)).advance := by
  have hw := validWord_of_encodeRequest hf
  obtain ⟨c, hc, h⟩ := step_of_legal hl
  rw [h, ← Regs.start_eq_started]
  cases hc.legalEdge hl <;> simp_all [frameBytes_inj]

end

/-- What the frame of a word is made of: the table entries of its fields and their checksum (R108). -/
theorem encodeRequest_frame {w : ReqWord} {f : Frame} (h : encodeRequest w = some (frameBytes f)) :
    modeTable (modeField w) = some f.mode ∧ levelTable (brightField w) = some f.bright ∧
      levelTable (speedField w) = some f.speed ∧ f.checksum = u8 (unreducedSum f) := by
  obtain ⟨m, g, hm, hg, heq⟩ := (encodeRequest_eq_some_iff w _).mp h
  obtain rfl := frameBytes_inj.mp heq
  obtain ⟨hmode, hbright, hspeed⟩ := frame_fields_of_frameOf hg
  exact ⟨by simp [modeTable, hm, hmode], hbright, hspeed, checksum_of_frameOf hg⟩

/-- Settles O18: the three branches of R110, and what the frame of the third is made of (`encodeRequest_frame`). -/
theorem acceptingEdge : Obligations.AcceptingEdge := by
  unfold Obligations.AcceptingEdge
  intro s hl hr hp hv
  refine ⟨step_of_invalid_request hl hr hp hv, step_of_channel_down hl hr hp hv, fun f hc hf => ?_, fun hw => ?_⟩
  · obtain ⟨hmode, hbright, hspeed, hsum⟩ := encodeRequest_frame hf
    exact ⟨validWord_of_encodeRequest hf, hmode, hbright, hspeed, hsum, step_of_start hl hr hp hv hc hf⟩
  · obtain ⟨l, hl⟩ := Option.isSome_iff_exists.mp ((encodeRequest_isSome _).trans hw)
    obtain ⟨m, f, -, -, rfl⟩ := (encodeRequest_eq_some_iff _ l).mp hl
    exact ⟨f, hl⟩

/-! ### A SEND at a ready block -/

section
variable {i : Instr} {s : State}

/-- A SEND at a ready block is the accepting edge of its request (R21, R110). -/
theorem exec_of_ready (hp : s.core.phase = .idle) (hr : s.pins.rst = false) :
    exec i s = .next (s.withCore (s.core.accept i.mode i.bright i.speed s.pins.chanOk)) := by
  simp [exec_eq, State.sendEdge, Regs.reqReady, hp, hr]

/-- A SEND with an operand that is no level takes ERR_CONFIG (R182, R186). -/
theorem exec_of_not_wellFormed (hp : s.core.phase = .idle) (hr : s.pins.rst = false) (hw : i.wellFormed = false) :
    exec i s = .next (s.withCore (ended s.core .errConfig 0)) := by
  rw [exec_of_ready hp hr, Regs.accept, frameOf_invalid _ _ _ hw, Regs.raise_eq_ended]

/-- A SEND of two levels with the channel down takes ERR_PORT (R183). -/
theorem exec_of_channel_down (hp : s.core.phase = .idle) (hr : s.pins.rst = false) (hw : i.wellFormed = true)
    (hc : s.pins.chanOk = false) : exec i s = .next (s.withCore (ended s.core .errPort 0)) := by
  obtain ⟨hb, hs⟩ := Bool.and_eq_true_iff.mp hw
  rw [exec_of_ready hp hr, Regs.accept, frameOf_eq_sentFrame _ hb hs, hc, ← Regs.raise_eq_ended]
  rfl

/-- A SEND of two levels with the channel up starts its frame (R110, R120 to R124). -/
theorem exec_of_channel_up (hp : s.core.phase = .idle) (hr : s.pins.rst = false) (hw : i.wellFormed = true)
    (hc : s.pins.chanOk = true) :
    exec i s = .next (s.withCore (started s.core (sentFrame (modeByte i.mode).toNat i.bright i.speed))) := by
  obtain ⟨hb, hs⟩ := Bool.and_eq_true_iff.mp hw
  rw [exec_of_ready hp hr, Regs.accept, frameOf_eq_sentFrame _ hb hs, hc, ← Regs.start_eq_started]
  rfl

end

/-- Whatever it answers, a SEND replaces the registers alone. -/
theorem exec_withCore (i : Instr) (s : State) : ∃ c, exec i s = .next (s.withCore c) := by
  rw [exec_eq, State.sendEdge]
  split
  · exact ⟨_, rfl⟩
  · exact ⟨_, rfl⟩

/-- Settles O24: `exec_of_not_wellFormed` and `exec_of_channel_down`. -/
theorem sendTakesItsExceptions : Obligations.SendTakesItsExceptions := by
  unfold Obligations.SendTakesItsExceptions
  exact fun i s hp hr => ⟨exec_of_not_wellFormed hp hr, exec_of_channel_down hp hr⟩

/-- Settles O25: a SEND replaces the registers alone (`exec_withCore`), and at a ready block the registers are those of one of
the three branches of R110. -/
theorem sendLeavesTheRestUnchanged : Obligations.SendLeavesTheRestUnchanged := by
  unfold Obligations.SendLeavesTheRestUnchanged
  intro i s t h
  obtain ⟨c, hc⟩ := exec_withCore i s
  obtain rfl := Host.Outcome.next.inj (hc.symm.trans h)
  have core_eq {d : Regs} (hd : exec i s = .next (s.withCore d)) : c = d :=
    congrArg State.core (Host.Outcome.next.inj (hc.symm.trans hd))
  refine ⟨⟨rfl, rfl, rfl, rfl⟩, fun hp hr => ⟨fun hw hchan => ?_, fun hexc => ?_⟩⟩
  · rw [State.withCore_core, core_eq (exec_of_channel_up hp hr hw hchan)]
    rfl
  · have hended : ∃ e, c = ended s.core e 0 := by
      cases hw : i.wellFormed with
      | false => exact ⟨_, core_eq (exec_of_not_wellFormed hp hr hw)⟩
      | true => exact ⟨_, core_eq (exec_of_channel_down hp hr hw (by simpa [hw] using hexc))⟩
    obtain ⟨e, rfl⟩ := hended
    exact ⟨rfl, rfl, rfl, rfl, rfl, rfl⟩

/-! ### The five SEND instructions -/

section
variable {b sp : Code} {s : State}

/-- The SEND of a mode at a ready block with the channel up starts the frame of that mode's byte (R120 to R124). -/
theorem exec_instrOf_starts (m : Mode) (hb : levelValid b = true) (hs : levelValid sp = true) (hp : s.core.phase = .idle)
    (hr : s.pins.rst = false) (hc : s.pins.chanOk = true) :
    exec (instrOf m b sp) s = .next (s.withCore (started s.core (sentFrame (modeByte m).toNat b sp))) := by
  have hw : (instrOf m b sp).wellFormed = true := by simp [Instr.wellFormed, hb, hs]
  simpa using exec_of_channel_up hp hr hw hc

/-- The frames of one mode byte have sums from `M + 0xFC`, at two levels 5, to `M + 0x104`, at two levels 1 (R106). -/
theorem unreducedSum_sentFrame_range {M : Nat} (hM : M < 256) (hb : levelValid b = true) (hs : levelValid sp = true) :
    M + 0xFC ≤ unreducedSum (sentFrame M b sp) ∧ unreducedSum (sentFrame M b sp) ≤ M + 0x104 := by
  rw [levelValid_iff] at hb hs
  rw [unreducedSum_sentFrame hM]
  omega

end

/-- Settles O19: the frame by `exec_instrOf_starts`, the range of its sums by `unreducedSum_sentFrame_range`. -/
theorem sendOffStartsItsFrame : Obligations.SendOffStartsItsFrame := by
  unfold Obligations.SendOffStartsItsFrame
  exact ⟨fun _ _ _ => exec_instrOf_starts .off, fun _ _ => unreducedSum_sentFrame_range (by decide), by decide, by decide,
    by decide, (decode_eq_ok_iff _ _).mpr rfl, by decide⟩

/-- Settles O20: as O19, and no frame of another mode has a larger sum (`unreducedSum_range`). -/
theorem sendAutoStartsItsFrame : Obligations.SendAutoStartsItsFrame := by
  unfold Obligations.SendAutoStartsItsFrame
  exact ⟨fun _ _ _ => exec_instrOf_starts .auto, fun _ _ => unreducedSum_sentFrame_range (by decide), by decide, by decide,
    fun _ _ _ _ h => (unreducedSum_range h).2, by decide, (decode_eq_ok_iff _ _).mpr rfl, by decide⟩

/-- Settles O21: the frame by `exec_instrOf_starts`; no frame has a smaller sum (`unreducedSum_range`). -/
theorem sendRainbowStartsItsFrame : Obligations.SendRainbowStartsItsFrame := by
  unfold Obligations.SendRainbowStartsItsFrame
  exact ⟨fun _ _ _ => exec_instrOf_starts .rainbow, by decide, by decide, fun _ _ _ _ h => (unreducedSum_range h).1,
    by decide, by decide, by decide, (decode_eq_ok_iff _ _).mpr rfl, by decide⟩

/-- Settles O22: the frame by `exec_instrOf_starts`, the named pairs and the count one by one. -/
theorem sendBreathingStartsItsFrame : Obligations.SendBreathingStartsItsFrame := by
  unfold Obligations.SendBreathingStartsItsFrame
  exact ⟨fun _ _ _ => exec_instrOf_starts .breathing, by decide, by decide, by decide, by decide,
    (decode_eq_ok_iff _ _).mpr rfl, by decide⟩

/-- Settles O23: the frame by `exec_instrOf_starts`, the named pairs and the one that does not wrap one by one. -/
theorem sendCycleStartsItsFrame : Obligations.SendCycleStartsItsFrame := by
  unfold Obligations.SendCycleStartsItsFrame
  exact ⟨fun _ _ _ => exec_instrOf_starts .cycle, by decide, by decide, by decide, by decide,
    (decode_eq_ok_iff _ _).mpr rfl, by decide⟩

/-! ### A transaction after an ERR_TX -/

/-- An idle block that reports an ERR_TX after one byte, with `SEND.RAINBOW 5, 1` presented and the channel up again. -/
def readyAfterErrTx : State where
  core := { Regs.reset with status := .errTx, sentCount := 1 }
  pins := { rst := false, reqValid := true, reqWord := 0x06A, chanOk := true }
  stimulus := []
  bitTicks := 1
  resetDraw := 0

/-- Settles O40 by `readyAfterErrTx`: the accepting edge starts its frame and keeps `status` (R110, log entry 6). -/
theorem errTxReportOutlivesItsCount : Obligations.ErrTxReportOutlivesItsCount := by
  unfold Obligations.ErrTxReportOutlivesItsCount
  have hframe : encodeRequest readyAfterErrTx.pins.reqWord = some (frameBytes ⟨0x01, 0x01, 0x05, 0x01⟩) := rfl
  have hstep := step_of_start (s := readyAfterErrTx) rfl rfl rfl rfl rfl hframe
  exact ⟨readyAfterErrTx, _, rfl, fun _ => ⟨le_rfl, by decide⟩, hstep, rfl, rfl, rfl⟩

end Sys2Proof.Machine
end

section
/-! PROOFS. The sequencer's edges one by one (R141 to R150), what the block is ready for after a completing edge (R155, R156), and
the step as the assembled function of R152. -/

namespace Sys2Proof.Machine

open Sys2Proof.Safety

/-! ### The step at each edge -/

/-- The step of a legal state is the case of `LegalEdge` whose condition its inputs and its registers meet. -/
theorem LegalEdge.step_eq {s : State} {c : Regs} (hc : LegalEdge s c) (hl : Legal s) :
    step s = .next (s.withCore c).advance := by
  cases hc with
  | reset hr => exact step_of_reset hl hr
  | quiet hr hp hv => exact step_of_quiet hl hr hp hv
  | errConfig hr hp hv hw => exact step_of_invalid_request hl hr hp hv hw
  | errPort hr hp hv hw hc => exact step_of_channel_down hl hr hp hv hw hc
  | start hr hp hv _ hc f hf => exact step_of_start hl hr hp hv hc hf
  | countTick hr hp ht =>
    cases hph : s.core.phase with
    | idle => exact absurd hph hp
    | bit => simp [step_of_bit hl hr hph, Regs.bitEdge, Regs.atBoundary, ht]
    | gap => simp [step_of_gap hl hr hph, Regs.gapEdge, Regs.atBoundary, ht]
  | nextSlot hr hp ht hb => simp [step_of_bit hl hr hp, Regs.bitEdge, Regs.atBoundary, ht, hb]
  | enterGap hr hp ht hb hi => simp [step_of_bit hl hr hp, Regs.bitEdge, Regs.atBoundary, ht, hb, hi]
  | finish hr hp ht hb hi => simp [step_of_bit hl hr hp, Regs.bitEdge, Regs.atBoundary, ht, hb, hi]
  | countGap hr hp ht hg => simp [step_of_gap hl hr hp, Regs.gapEdge, Regs.atBoundary, ht, hg]
  | nextByte hr hp ht hg hc => simp [step_of_gap hl hr hp, Regs.gapEdge, Regs.atBoundary, ht, hg, hc]
  | failWrite hr hp ht hg hc => simp [step_of_gap hl hr hp, Regs.gapEdge, Regs.atBoundary, ht, hg, hc]

/-- The slot after one of slots 0 to 8 does not wrap (R28). -/
theorem bitpos_add_one_val (j : Fin 10) (h : j.val < 9) : (j + 1).val = j.val + 1 :=
  Fin.val_add_one_of_lt (by simpa [Fin.lt_def] using h)

/-- The delay timer below its last value does not wrap (R30). -/
theorem gapcnt_add_one_val (g : Fin Config.gapBits) (h : g.val < 49) : (g + 1).val = g.val + 1 :=
  Fin.val_add_one_of_lt (by simpa [Fin.lt_def] using h)

/-- In a legal gap the byte count is already that of the byte before the gap (R38, R40). -/
theorem sentCount_of_gap {s : State} (hl : Legal s) (hp : s.core.phase = .gap) :
    s.core.idx.val ≤ 3 ∧ s.core.sentCount = s.core.idx.succ := by
  obtain ⟨-, hgap, -⟩ := (Regs.legal_iff _ _).mp hl
  obtain ⟨hi, hcount⟩ := hgap hp
  exact ⟨hi, Fin.ext hcount⟩

/-! ### The line and the edges of a transmission -/

/-- Settles O11: `txd` phase by phase, and `sel_byte` entry by entry. -/
theorem lineShowsTheSelectedByte : Obligations.LineShowsTheSelectedByte := by
  unfold Obligations.LineShowsTheSelectedByte
  exact fun r => ⟨Regs.txd_of_bit, fun h => Regs.txd_of_ne_bit (by simp [h]), fun h => Regs.txd_of_ne_bit (by simp [h]),
    rfl, rfl, rfl, rfl, rfl⟩

/-- Settles O30: the edge is `quiet`, which leaves the phase at IDLE. -/
theorem idleEdgeChangesNothing : Obligations.IdleEdgeChangesNothing := by
  unfold Obligations.IdleEdgeChangesNothing
  intro s hl hr hp hv
  exact ⟨step_of_quiet hl hr hp hv, Regs.txd_of_ne_bit (by simp [hp]), Regs.txd_of_ne_bit (by simp [hp])⟩

/-- At a boundary every edge of BIT and of GAP clears the baud counter (R144). -/
theorem LegalEdge.tick_of_boundary {s : State} {c : Regs} (hc : LegalEdge s c) (hr : s.pins.rst = false)
    (hp : s.core.phase ≠ .idle) (ht : ¬ s.core.tick < s.bitTicks - 1) : c.tick = 0 := by
  cases hc with
  | reset hrst => simp [hr] at hrst
  | quiet _ hidle | errConfig _ hidle | errPort _ hidle | start _ hidle => exact absurd hidle hp
  | countTick _ _ hlt => exact absurd hlt ht
  | nextSlot | enterGap | finish | countGap | nextByte | failWrite => rfl

/-- Settles O31: below the boundary the edge is `countTick`, at the boundary it is one that clears `tick`
(`LegalEdge.tick_of_boundary`). -/
theorem baudCounter : Obligations.BaudCounter := by
  unfold Obligations.BaudCounter
  intro s hl hr hp
  refine ⟨fun ht => (LegalEdge.countTick hr hp ht).step_eq hl, fun ht => ?_, fun h1 => by omega⟩
  obtain ⟨c, hc, h⟩ := step_of_legal hl
  exact ⟨_, h, (hc.legalEdge hl).tick_of_boundary hr hp ht⟩

/-- Settles O32: the edge is `nextSlot`, which stays in BIT at the same byte. -/
theorem nextSlotOfTheCharacter : Obligations.NextSlotOfTheCharacter := by
  unfold Obligations.NextSlotOfTheCharacter
  intro s hl hr hp ht hb
  exact ⟨(LegalEdge.nextSlot hr hp ht hb).step_eq hl, bitpos_add_one_val _ hb, Regs.txd_of_bit (r := s.core.nextSlot) hp⟩

/-- Settles O33: the edge is `enterGap`. -/
theorem stopBitStartsTheGap : Obligations.StopBitStartsTheGap := by
  unfold Obligations.StopBitStartsTheGap
  intro s hl hr hp ht hb hi
  exact (LegalEdge.enterGap hr hp ht hb (Nat.lt_succ_of_le hi)).step_eq hl

/-- Settles O34: the edge is `finish`. -/
theorem checksumStopBitCompletes : Obligations.ChecksumStopBitCompletes := by
  unfold Obligations.ChecksumStopBitCompletes
  intro s hl hr hp ht hb hi
  exact (LegalEdge.finish hr hp ht hb hi).step_eq hl

/-- Settles O35: the edge is `countGap`. -/
theorem gapCountsBitPeriods : Obligations.GapCountsBitPeriods := by
  unfold Obligations.GapCountsBitPeriods
  intro s hl hr hp ht hg
  exact ⟨(LegalEdge.countGap hr hp ht hg).step_eq hl, gapcnt_add_one_val _ hg, Regs.txd_of_ne_bit (by simp [hp])⟩

/-- Settles O36: the edge is `nextByte`, and the gap is one after bytes 0 to 3 (`sentCount_of_gap`). -/
theorem gapEndStartsTheNextByte : Obligations.GapEndStartsTheNextByte := by
  unfold Obligations.GapEndStartsTheNextByte
  intro s hl hr hp ht hg hc
  obtain ⟨hi, -⟩ := sentCount_of_gap hl hp
  exact ⟨(LegalEdge.nextByte hr hp ht hg hc).step_eq hl, idx_add_one_val _ hi⟩

/-- Settles O37: the edge is `failWrite`, which writes the count that the stop bit wrote before (`sentCount_of_gap`). -/
theorem gapEndWithChannelDownFails : Obligations.GapEndWithChannelDownFails := by
  unfold Obligations.GapEndWithChannelDownFails
  intro s hl hr hp ht hg hc
  obtain ⟨-, hcount⟩ := sentCount_of_gap hl hp
  have hstep := (LegalEdge.failWrite hr hp ht hg hc).step_eq hl
  rw [hcount]
  exact ⟨hstep, rfl, Regs.txd_of_ne_bit (by simp [hp]), rfl⟩

/-! ### After a completing edge -/

/-- The edges that set `done_r` end in IDLE (R39, R155). -/
theorem LegalEdge.phase_of_doneR {s : State} {c : Regs} (hc : LegalEdge s c) (hd : c.doneR = true) : c.phase = .idle := by
  cases hc with
  | errConfig | errPort | finish | failWrite => rfl
  | reset | quiet | start | countTick | nextSlot | enterGap | countGap | nextByte => simp at hd

/-- Settles O53: an edge with an outcome writes it with a 1 in `done_r` (`LegalEdge.outcome`) and so ends in IDLE, where a
request without reset is accepted. -/
theorem completingEdgeLeavesTheBlockReady : Obligations.CompletingEdgeLeavesTheBlockReady := by
  unfold Obligations.CompletingEdgeLeavesTheBlockReady
  intro s t o h ho
  obtain ⟨-, c, hc, rfl⟩ := step_legalEdge h
  obtain ⟨hnone, -⟩ | ⟨-, e, hsome, hdone, hst⟩ := hc.outcome
  · simp [hnone] at ho
  · obtain rfl : e = o := Option.some.inj (hsome.symm.trans ho)
    have hp := hc.phase_of_doneR hdone
    refine ⟨hp, Regs.txd_of_ne_bit (by simp [hp]), hst, fun hr => ⟨by rw [hr]; simp [Regs.reqReady, hp], fun hv => ?_⟩⟩
    exact (State.accepting_iff _).mpr ⟨hp, hr, hv⟩

/-! ### The assembled function -/

/-- The frame of a word over the formula of R102 and the sum of R105, as R152 writes it. -/
theorem start_eq_assembledStart (r : Regs) {w : ReqWord} {f : Frame} (h : encodeRequest w = some (frameBytes f)) :
    r.start f = assembledStart { r with doneR := false } w := by
  obtain ⟨m, g, hm, hg, heq⟩ := (encodeRequest_eq_some_iff w _).mp h
  obtain rfl := frameBytes_inj.mp heq
  obtain ⟨⟨hb, hs⟩, -⟩ := (frameOf_eq_some_iff _ _ _ _).mp hg
  obtain rfl := Option.some.inj ((frameOf_valid m _ _ hb hs).symm.trans hg)
  have hmode : modeByCode (modeField w) = modeByte m := by simp [modeByCode, modeTable, hm]
  simp [Regs.start, assembledStart, hmode]

/-- Every edge of a legal state leaves the registers that R152's text gives. -/
theorem LegalEdge.eq_assembledStep {s : State} {c : Regs} (hc : LegalEdge s c) (hl : Legal s) :
    c = assembledStep s.bitTicks s.resetDraw s.core s.pins := by
  cases hc with
  | reset hr => simp [assembledStep, hr]
  | quiet hr hp hv => simp [assembledStep, assembledIdle, hr, hp, hv, Regs.quiet]
  | errConfig hr hp hv hw => simp [assembledStep, assembledIdle, hr, hp, hv, hw, Regs.raise]
  | errPort hr hp hv hw hc => simp [assembledStep, assembledIdle, hr, hp, hv, hw, hc, Regs.raise]
  | start hr hp hv hw hc f hf => simp [assembledStep, assembledIdle, hr, hp, hv, hw, hc, start_eq_assembledStart _ hf]
  | countTick hr hp ht =>
    cases hph : s.core.phase with
    | idle => exact absurd hph hp
    | bit => simp [assembledStep, assembledBit, hr, hph, ht, Regs.countTick]
    | gap => simp [assembledStep, assembledGap, hr, hph, ht, Regs.countTick]
  | nextSlot hr hp ht hb => simp [assembledStep, assembledBit, hr, hp, ht, hb, Regs.nextSlot]
  | enterGap hr hp ht hb hi => simp [assembledStep, assembledBit, hr, hp, ht, hb, hi, Regs.enterGap]
  | finish hr hp ht hb hi => simp [assembledStep, assembledBit, hr, hp, ht, hb, hi, Regs.finish]
  | countGap hr hp ht hg => simp [assembledStep, assembledGap, hr, hp, ht, hg, Regs.countGap]
  | nextByte hr hp ht hg hc => simp [assembledStep, assembledGap, hr, hp, ht, hg, hc, Regs.nextByte]
  | failWrite hr hp ht hg hc =>
    obtain ⟨-, hcount⟩ := sentCount_of_gap hl hp
    simp [assembledStep, assembledGap, hr, hp, ht, hg, hc, Regs.failWrite, Regs.raise, hcount]

/-- Settles O38, by `LegalEdge.eq_assembledStep`. -/
theorem stepIsTheAssembledFunction : Obligations.StepIsTheAssembledFunction := by
  unfold Obligations.StepIsTheAssembledFunction
  intro s hl
  obtain ⟨c, hc, h⟩ := step_of_legal hl
  rw [h, (hc.legalEdge hl).eq_assembledStep hl]

end Sys2Proof.Machine
end

section
/-! PROOFS. A byte and the gap after it as one stretch of `60 * BIT_TICKS` cycles, from the start bit to the write check of the
next byte, and the pacing that follows (R157, R220). -/

namespace Sys2Proof.Machine

open Sys2Proof.Safety

/-! ### Runs of legal states -/

/-- Every run from a legal state ends in a legal state (R40). -/
theorem reaches_legal {n : Nat} {s t : State} (hl : Legal s) (ht : Reaches n s t) : Legal t := by
  induction n generalizing s with
  | zero => exact reaches_unique (reaches_zero s) ht ▸ hl
  | succ n ih =>
    obtain ⟨u, hu, hut⟩ := (reaches_succ_iff n s t).mp ht
    exact ih (step_legal hl hu) hut

/-- No run changes `BIT_TICKS`. -/
theorem reaches_bitTicks {n : Nat} {s t : State} (ht : Reaches n s t) : t.bitTicks = s.bitTicks := by
  induction n generalizing s with
  | zero => rw [reaches_unique (reaches_zero s) ht]
  | succ n ih =>
    obtain ⟨u, hu, hut⟩ := (reaches_succ_iff n s t).mp ht
    exact (ih hut).trans (step_bitTicks hu)

/-- A shorter run has no reset either. -/
theorem noReset_of_le {m n : Nat} {s : State} (hr : NoReset s n) (h : m ≤ n) : NoReset s m :=
  fun e he => hr e (by omega)

/-- The rest of a run without reset has none. -/
theorem noReset_of_reaches {m n : Nat} {s t : State} (hr : NoReset s (m + n)) (ht : Reaches m s t) : NoReset t n := by
  intro e he
  rw [reaches_pinsAt ht]
  exact hr _ (by omega)

/-! ### From a start bit to the next -/

section
variable {p : Phase} {bt : Nat} {k : Fin 5} {f : Frame} {n : Nat} {s : State}

/-- In cycle 0 of a character or a gap, and in no later one, both counters are 0. -/
theorem InPhase.counters_zero_iff (h : InPhase p bt k f n s) : (s.core.periods = 0 ∧ s.core.tick = 0) ↔ n = 0 := by
  have he := h.elapsed
  obtain ⟨hdiv, hmod⟩ := h.counters
  constructor
  · rintro ⟨hper, htick⟩
    rw [← he, hper, htick, Nat.mul_zero]
  · rintro rfl
    exact ⟨by rw [← hdiv, Nat.zero_div], by rw [← hmod, Nat.zero_mod]⟩

/-- The first cycle of a character is that of its start bit. -/
theorem InPhase.atByteStart_iff (h : InPhase .bit bt k f n s) (j : Fin 5) : AtByteStart s.core j ↔ n = 0 ∧ k = j := by
  rw [← h.counters_zero_iff, Regs.periods_of_bit h.phase, ← h.idx, AtByteStart, Fin.ext_iff (a := s.core.bitpos)]
  simp [h.phase, and_comm, and_left_comm]

/-- Cycle 0 of a gap is its first cycle. -/
theorem InPhase.atGapStart (h : InPhase .gap bt k f 0 s) : AtGapStart s.core k := by
  obtain ⟨hper, htick⟩ := h.counters_zero_iff.mpr rfl
  rw [Regs.periods_of_gap h.phase] at hper
  exact ⟨h.phase, h.idx, Fin.ext hper, htick⟩

/-- No byte starts outside BIT. -/
theorem not_atByteStart {r : Regs} (h : r.phase ≠ .bit) (j : Fin 5) : ¬ AtByteStart r j :=
  fun ⟨hp, _⟩ => h hp

/-- The gap after one of bytes 0 to 3 starts `10 * BIT_TICKS` cycles after the byte (R146). -/
theorem reaches_gapStart (h : InPhase .bit bt k f 0 s) (hk : k.val < 4) (hr : NoReset s (10 * bt)) :
    ∃ t, Reaches (10 * bt) s t ∧ InPhase .gap bt k f 0 t := by
  obtain rfl := h.bitTicks
  obtain rfl := h.frame
  obtain ⟨t, ht, hsent⟩ := reaches_characterSent h.legal ((h.atByteStart_iff k).mpr ⟨rfl, rfl⟩) hr
  have hin := inPhase_of_atGapStart (reaches_legal h.legal ht) (hsent.gap hk)
  rw [reaches_bitTicks ht, hsent.frame] at hin
  exact ⟨t, ht, hin⟩

/-- The cycle number `m` of the gap is the cycle number `10 * BIT_TICKS + m` from the start bit of its byte. -/
theorem reaches_inGap (h : InPhase .bit bt k f 0 s) (hk : k.val < 4) {m : Nat} (hr : NoReset s (10 * bt + m))
    (hm : m < 50 * bt) : ∃ t, Reaches (10 * bt + m) s t ∧ InPhase .gap bt k f m t := by
  obtain ⟨u, hu, hgap⟩ := reaches_gapStart h hk (noReset_of_le hr (by omega))
  obtain ⟨t, ht, hin⟩ := reaches_inPhase hgap (by decide) (noReset_of_reaches hr hu) hm
  exact ⟨t, (reaches_add_iff _ _ s t).mpr ⟨u, hu, ht⟩, hin⟩

/-- The write check of the next byte is the edge that ends `60 * BIT_TICKS` cycles from the start bit (R149, R150, R157). -/
theorem reaches_writeCheck (h : InPhase .bit bt k f 0 s) (hk : k.val < 4) (hr : NoReset s (60 * bt)) :
    ∃ t, Reaches (60 * bt) s t ∧ GapEnded t.core k f (s.pinsAt (60 * bt - 1)).chanOk := by
  have hsplit : 60 * bt = 10 * bt + 50 * bt := by omega
  have hpos := h.tick_lt
  obtain ⟨u, hu, hgap⟩ := reaches_gapStart h hk (noReset_of_le hr (by omega))
  have hu' : NoReset u (50 * u.bitTicks) := hgap.bitTicks ▸ noReset_of_reaches (hsplit ▸ hr) hu
  obtain ⟨t, ht, hend⟩ := reaches_gapEnded hgap.legal hgap.atGapStart hu'
  rw [hgap.frame, hgap.bitTicks, reaches_pinsAt hu, show 10 * bt + (50 * bt - 1) = 60 * bt - 1 by omega] at hend
  rw [hgap.bitTicks] at ht
  exact ⟨t, hsplit ▸ (reaches_add_iff _ _ s t).mpr ⟨u, hu, ht⟩, hend⟩

/-- Where the write check passes, the byte that starts after it is the next in offset order. -/
theorem GapEnded.atByteStart {r : Regs} {c : Bool} (h : GapEnded r k f c) {j : Fin 5} (hj : AtByteStart r j) :
    j.val = k.val + 1 ∧ c = true := by
  have hres := h.result
  obtain ⟨hp, hi, -⟩ := hj
  cases c with
  | false => simp [hp] at hres
  | true =>
    obtain ⟨i, hik, -, hi', -⟩ := hres
    exact ⟨by rw [← hi, hi', hik], rfl⟩

end

/-- Settles O56: before `10 * BIT_TICKS` the run is in the character and past its first cycle, before `60 * BIT_TICKS` it is in
the gap, and at `60 * BIT_TICKS` it has made the write check. -/
theorem pacingHolds : Obligations.PacingHolds := by
  unfold Obligations.PacingHolds
  intro s t k n hl hk hk4 hr hpos hn ht
  have hstart := inPhase_of_atByteStart hl hk
  obtain hchar | hgap | rfl : n < 10 * s.bitTicks ∨ (10 * s.bitTicks ≤ n ∧ n < 60 * s.bitTicks) ∨ n = 60 * s.bitTicks := by
    omega
  · obtain ⟨u, hu, hin⟩ := reaches_inPhase hstart (by decide) hr hchar
    obtain rfl := reaches_unique hu ht
    refine ⟨fun h10 => by omega, fun j hj => ?_⟩
    obtain ⟨h0, -⟩ := (hin.atByteStart_iff j).mp hj
    omega
  · obtain ⟨m, rfl⟩ := Nat.exists_eq_add_of_le hgap.1
    obtain ⟨u, hu, hin⟩ := reaches_inGap hstart hk4 hr (by omega)
    obtain rfl := reaches_unique hu ht
    have hp : u.core.phase ≠ .bit := by simp [hin.phase]
    exact ⟨fun _ _ => ⟨hin.phase, Regs.txd_of_ne_bit hp⟩, fun j hj => absurd hj (not_atByteStart hp j)⟩
  · obtain ⟨u, hu, hend⟩ := reaches_writeCheck hstart hk4 hr
    obtain rfl := reaches_unique hu ht
    exact ⟨fun _ h60 => by omega, fun j hj => ⟨rfl, hend.atByteStart hj⟩⟩

end Sys2Proof.Machine
end

section
/-! PROOFS. A whole transaction from its accepting edge (R153, R154): byte `k` starts `60 * k * BIT_TICKS` cycles after it as
long as the write checks pass, and every statement about the transaction is one about a byte, its gap and its write check. -/

namespace Sys2Proof.Machine

open Sys2Proof.Safety

/-! ### The start of each byte -/

section
variable {k L : Nat} {f : Frame} {s t : State}

theorem checksPass_of_le {i : Nat} (hc : ChecksPass s k) (h : i ≤ k) : ChecksPass s i :=
  fun j hj => hc j (by omega)

/-- The accepting edge starts the start bit of byte 0 (R110). -/
theorem step_of_opens (h : Opens s f) : ∃ t, step s = .next t ∧ InPhase .bit s.bitTicks 0 f 0 t := by
  have hr : s.pins.rst = false := s.pinsAt_zero ▸ h.noReset 0 (by omega)
  have hs := step_of_start h.legal hr h.idle h.request h.channel h.frame
  exact ⟨_, hs, inPhase_of_atByteStart (step_legal h.legal hs) ⟨rfl, rfl, rfl, rfl⟩⟩

/-- No reset comes in the bit periods of the transaction that are left after the start of byte `k`. -/
theorem noReset_of_opens (h : Opens s f) (ht : Reaches (60 * k * s.bitTicks + 1) s t) (hL : 60 * k + L ≤ 250) :
    NoReset t (L * s.bitTicks) := by
  have hle := Nat.mul_le_mul_right s.bitTicks hL
  rw [Nat.add_mul] at hle
  exact noReset_of_reaches (noReset_of_le h.noReset (by omega)) ht

/-- The write check at the end of gap `k`, `60 * (k + 1)` bit periods after the accepting edge, whatever its result (R153). -/
theorem reaches_writeCheck_of_opens (h : Opens s f) {hk : k < 5} (ht : Reaches (60 * k * s.bitTicks + 1) s t)
    (hin : InPhase .bit s.bitTicks ⟨k, hk⟩ f 0 t) (hk4 : k < 4) :
    ∃ u, Reaches (60 * (k + 1) * s.bitTicks + 1) s u ∧
      GapEnded u.core ⟨k, hk⟩ f (s.pinsAt (60 * (k + 1) * s.bitTicks)).chanOk := by
  have hsplit : 60 * (k + 1) * s.bitTicks = 60 * k * s.bitTicks + 60 * s.bitTicks := by ring
  have hpos := hin.tick_lt
  obtain ⟨u, hu, hend⟩ := reaches_writeCheck hin hk4 (noReset_of_opens h ht (by omega))
  rw [reaches_pinsAt ht, show 60 * k * s.bitTicks + 1 + (60 * s.bitTicks - 1) = 60 * (k + 1) * s.bitTicks by omega] at hend
  refine ⟨u, ?_, hend⟩
  rw [hsplit, Nat.add_right_comm]
  exact (reaches_add_iff _ _ s u).mpr ⟨t, ht, hu⟩

/-- Byte `k` starts `60 * k` bit periods after the accepting edge where the write checks before it pass (R153). -/
theorem reaches_byteStart (h : Opens s f) (hk : k < 5) (hc : ChecksPass s k) :
    ∃ t, Reaches (60 * k * s.bitTicks + 1) s t ∧ InPhase .bit s.bitTicks ⟨k, hk⟩ f 0 t := by
  induction k with
  | zero =>
    obtain ⟨t, ht, hin⟩ := step_of_opens h
    rw [Nat.mul_zero, Nat.zero_mul, Nat.zero_add]
    exact ⟨t, (reaches_one_iff s t).mpr ht, hin⟩
  | succ k ih =>
    obtain ⟨t, ht, hin⟩ := ih (by omega) (checksPass_of_le hc k.le_succ)
    obtain ⟨u, hu, hend⟩ := reaches_writeCheck_of_opens h ht hin (by omega)
    have hres := hend.result
    rw [hc k k.lt_succ_self] at hres
    obtain ⟨j, hj, hstart⟩ := hres
    obtain rfl : j = ⟨k + 1, hk⟩ := Fin.ext hj
    have hin' := inPhase_of_atByteStart (reaches_legal h.legal hu) hstart
    rw [reaches_bitTicks hu, hend.frame] at hin'
    exact ⟨u, hu, hin'⟩

/-- A cycle of the stretch of byte `k` is a cycle of the transaction. -/
theorem reaches_of_byteStart {m : Nat} {u : State} (ht : Reaches (60 * k * s.bitTicks + 1) s t)
    (hu : Reaches (L * s.bitTicks + m) t u) : Reaches ((60 * k + L) * s.bitTicks + m + 1) s u := by
  rw [show (60 * k + L) * s.bitTicks + m + 1 = 60 * k * s.bitTicks + 1 + (L * s.bitTicks + m) by ring]
  exact (reaches_add_iff _ _ s u).mpr ⟨t, ht, hu⟩

/-- The transaction completes with OK 250 bit periods after the accepting edge where every write check passes (R153). -/
theorem reaches_complete (h : Opens s f) (hc : ChecksPass s 4) :
    ∃ t, Reaches (250 * s.bitTicks + 1) s t ∧ CharacterSent t.core 4 f := by
  obtain ⟨u, hu, hin⟩ := reaches_byteStart h (by omega) hc
  have hr := noReset_of_opens (L := 10) h hu (by omega)
  have hbt := hin.bitTicks
  obtain ⟨t, ht, hsent⟩ := reaches_characterSent hin.legal ((hin.atByteStart_iff 4).mpr ⟨rfl, rfl⟩) (hbt ▸ hr)
  rw [hbt] at ht
  rw [hin.frame] at hsent
  exact ⟨t, reaches_of_byteStart (L := 10) (m := 0) hu ht, hsent⟩

end

/-! ### The timing -/

section
variable {bt n : Nat} {k : Fin 5} {f : Frame} {s : State}

/-- The cycle number `j * BIT_TICKS + c` of a character is in slot `j` (R86). -/
theorem InPhase.bitpos_eq {j : Fin 10} {c : Nat} (h : InPhase .bit bt k f (j.val * bt + c) s) (hc : c < bt) :
    s.core.bitpos = j := by
  obtain ⟨hdiv, -⟩ := h.counters
  rw [Nat.mul_comm, Nat.mul_add_div (by omega), Nat.div_eq_of_lt hc, Nat.add_zero, Regs.periods_of_bit h.phase] at hdiv
  exact Fin.ext hdiv.symm

/-- While byte `k` is on the line, the bytes before it count as sent (R38, R40). -/
theorem InPhase.sentCount_of_bit (h : InPhase .bit bt k f n s) : s.core.sentCount.val = k.val := by
  obtain ⟨-, -, hbit, -⟩ := (Regs.legal_iff _ _).mp h.legal
  rw [hbit h.phase, h.idx]

/-- In the gap after byte `k`, that byte counts as sent too (R38, R40). -/
theorem InPhase.sentCount_of_gap (h : InPhase .gap bt k f n s) : s.core.sentCount.val = k.val + 1 := by
  obtain ⟨-, hcount⟩ := Machine.sentCount_of_gap h.legal h.phase
  rw [hcount, h.idx, Fin.val_succ]

/-- The selected byte is the frame's byte at offset `k` (R61, R64). -/
theorem InPhase.frameBytes_getElem? {p : Phase} (h : InPhase p bt k f n s) :
    (frameBytes f)[k.val]? = some (s.core.selByte k) :=
  h.frame ▸ s.core.frameBytes_getElem? k

end

/-- Settles O57: the run is in a character or in a gap counted from the start of byte `k` (`reaches_byteStart`), and ends as
`reaches_complete` says. -/
theorem transactionTiming : Obligations.TransactionTiming := by
  unfold Obligations.TransactionTiming
  refine ⟨fun s f h hc => ⟨fun k j c hcbt => ?_, fun k c hk4 hc50 => ?_, ?_⟩, rfl, rfl, rfl, rfl, fun _ => rfl⟩
  · obtain ⟨t, ht, hstart⟩ := reaches_byteStart h k.isLt (checksPass_of_le hc (by omega))
    have hlt : j.val * s.bitTicks + c < 10 * s.bitTicks := by
      have hj := Nat.mul_le_mul_right s.bitTicks (Nat.succ_le_of_lt j.isLt)
      rw [Nat.succ_mul] at hj
      omega
    have hr := noReset_of_opens (L := 10) h ht (by omega)
    obtain ⟨u, hu, hin⟩ := reaches_inPhase hstart (by decide) (noReset_of_le hr hlt.le) hlt
    have hslot := hin.bitpos_eq hcbt
    refine ⟨u, reaches_of_byteStart ht hu, hin.phase, hin.idx, hslot, hin.sentCount_of_bit, ?_⟩
    rw [Regs.txd_of_bit hin.phase, hin.idx, hslot, hin.frameBytes_getElem?]
    rfl
  · obtain ⟨t, ht, hstart⟩ := reaches_byteStart h k.isLt (checksPass_of_le hc (by omega))
    have hr := noReset_of_opens (L := 60) h ht (by omega)
    obtain ⟨u, hu, hin⟩ := reaches_inGap hstart hk4 (noReset_of_le hr (by omega)) hc50
    exact ⟨u, reaches_of_byteStart ht hu, hin.phase, hin.idx, Regs.txd_of_ne_bit (by simp [hin.phase]),
      hin.sentCount_of_gap⟩
  · obtain ⟨t, ht, hsent⟩ := reaches_complete h hc
    obtain ⟨hp, hst, hdone⟩ := hsent.complete rfl
    exact ⟨t, ht, hp, hst, hsent.sentCount, hdone, by simp [State.outputs, Regs.busy, h.idle]⟩

/-! ### A failing write check -/

/-- The write check at the end of gap `k`, with the channel down, ends the transaction (R150, R184). -/
theorem reaches_failedWrite {s : State} {f : Frame} {k : Nat} (h : Opens s f) (hk : k < 4) (hc : ChecksPass s k)
    (hdown : (s.pinsAt (60 * (k + 1) * s.bitTicks)).chanOk = false) :
    ∃ t, Reaches (60 * (k + 1) * s.bitTicks + 1) s t ∧ GapEnded t.core ⟨k, by omega⟩ f false := by
  obtain ⟨u, hu, hin⟩ := reaches_byteStart h (by omega) hc
  obtain ⟨t, ht, hend⟩ := reaches_writeCheck_of_opens h hu hin hk
  exact ⟨t, ht, hdown ▸ hend⟩

/-- Settles O58, by `reaches_failedWrite`. -/
theorem writeCheckFailureEndsInErrTx : Obligations.WriteCheckFailureEndsInErrTx := by
  unfold Obligations.WriteCheckFailureEndsInErrTx
  intro s f k hk h hc hdown
  obtain ⟨t, ht, hend⟩ := reaches_failedWrite h hk hc hdown
  obtain ⟨hp, hst, hdone⟩ := hend.result
  exact ⟨t, ht, hp, hst, congrArg Status.code hst, hend.sentCount, hdone, Regs.txd_of_ne_bit (by simp [hp]), hend.frame⟩

/-! ### The line trace -/

/-- What the trace shows of one cycle. -/
theorem lineTrace_one (c : Nat) (s : State) : lineTrace 1 c s = (s.core.byteStart.map (·, c)).toList := by
  cases hb : s.core.byteStart <;> cases hs : step s <;> simp [lineTrace, hb, hs]

/-- The trace of a run and of what follows it. -/
theorem lineTrace_add {a : Nat} (b c : Nat) {s t : State} (ht : Reaches a s t) :
    lineTrace (a + b) c s = lineTrace a c s ++ lineTrace b (c + a) t := by
  induction a generalizing c s with
  | zero =>
    obtain rfl := reaches_unique (reaches_zero s) ht
    simp [lineTrace]
  | succ a ih =>
    obtain ⟨u, hu, hut⟩ := (reaches_succ_iff a s t).mp ht
    rw [Nat.add_right_comm]
    simp only [lineTrace, hu, ih (c + 1) hut, List.append_assoc, Nat.add_comm a 1, Nat.add_assoc]

/-- No byte starts outside BIT. -/
theorem Regs.byteStart_of_ne_bit {r : Regs} (h : r.phase ≠ .bit) : r.byteStart = none :=
  if_neg fun ⟨hp, _⟩ => h hp

theorem lineTrace_one_of_ne_bit (c : Nat) {s : State} (h : s.core.phase ≠ .bit) : lineTrace 1 c s = [] := by
  rw [lineTrace_one, Regs.byteStart_of_ne_bit h]
  rfl

section
variable {p : Phase} {bt : Nat} {k : Fin 5} {f : Frame} {n : Nat} {s : State}

/-- A character starts its byte in its first cycle. -/
theorem InPhase.byteStart_of_first (h : InPhase .bit bt k f 0 s) : s.core.byteStart = (frameBytes f)[k.val]? := by
  obtain ⟨hp, hi, hb, ht⟩ := (h.atByteStart_iff k).mpr ⟨rfl, rfl⟩
  rw [h.frameBytes_getElem?, Regs.byteStart, if_pos ⟨hp, hb, ht⟩, hi]

/-- After the first cycle of a character or a gap no byte starts in it. -/
theorem InPhase.byteStart_of_later (h : InPhase p bt k f n s) (hn : n ≠ 0) : s.core.byteStart = none := by
  refine if_neg fun ⟨hp, hb, ht⟩ => hn (h.counters_zero_iff.mp ⟨?_, ht⟩)
  rw [Regs.periods_of_bit hp, hb]
  rfl

/-- The trace of a character or of a gap shows what its first cycle shows. -/
theorem InPhase.lineTrace (h : InPhase p bt k f 0 s) (hp : p ≠ .idle) (hr : NoReset s n) (hpos : 0 < n)
    (hn : n ≤ p.length * bt) (c : Nat) : lineTrace n c s = (s.core.byteStart.map (·, c)).toList := by
  induction n, hpos using Nat.le_induction with
  | base => exact lineTrace_one c s
  | succ n hpos ih =>
    have hr' := noReset_of_le hr n.le_succ
    obtain ⟨t, ht, hin⟩ := reaches_inPhase h hp hr' (by omega)
    rw [lineTrace_add 1 c ht, ih hr' (by omega), lineTrace_one, hin.byteStart_of_later (by omega)]
    exact List.append_nil _

/-- The trace of a character is its byte (R154). -/
theorem lineTrace_character (h : InPhase .bit bt k f 0 s) (hr : NoReset s (10 * bt)) (c : Nat) :
    lineTrace (10 * bt) c s = ((frameBytes f)[k.val]?.map (·, c)).toList := by
  have hpos := h.tick_lt
  rw [h.lineTrace (by decide) hr (by omega) le_rfl, h.byteStart_of_first]

/-- The trace of a gap is empty (R157). -/
theorem lineTrace_gap (h : InPhase .gap bt k f 0 s) (hr : NoReset s (50 * bt)) (c : Nat) : lineTrace (50 * bt) c s = [] := by
  have hpos := h.tick_lt
  rw [h.lineTrace (by decide) hr (by omega) le_rfl, Regs.byteStart_of_ne_bit (by simp [h.phase])]
  rfl

/-- The trace from a start bit to the write check of the next byte is the one byte. -/
theorem lineTrace_to_writeCheck (h : InPhase .bit bt k f 0 s) (hk : k.val < 4) (hr : NoReset s (60 * bt)) (c : Nat) :
    lineTrace (60 * bt) c s = ((frameBytes f)[k.val]?.map (·, c)).toList := by
  have hsplit : 60 * bt = 10 * bt + 50 * bt := by omega
  have hr10 := noReset_of_le (m := 10 * bt) hr (by omega)
  obtain ⟨t, ht, hgap⟩ := reaches_gapStart h hk hr10
  rw [hsplit, lineTrace_add _ c ht, lineTrace_character h hr10, lineTrace_gap hgap (noReset_of_reaches (hsplit ▸ hr) ht),
    List.append_nil]

end

/-- The first `k` bytes of a frame with the cycles in which R153 starts them. -/
def frameStarts (bt : Nat) (f : Frame) (k : Nat) : List (Byte × Nat) :=
  ((frameBytes f).take k).mapIdx fun j v => (v, 60 * j * bt + 1)

theorem frameStarts_succ (bt : Nat) (f : Frame) {k : Nat} (hk : k < 5) :
    frameStarts bt f (k + 1) = frameStarts bt f k ++ ((frameBytes f)[k]?.map (·, 60 * k * bt + 1)).toList := by
  have hlen : k < (frameBytes f).length := hk
  rw [frameStarts, List.take_add_one, List.mapIdx_append, List.length_take_of_le hlen.le, List.getElem?_eq_getElem hlen]
  simp [frameStarts]

section
variable {k : Nat} {f : Frame} {s : State}

/-- The trace up to the start of byte `k`, or to the end of gap `k - 1` where the write check there fails, is that of the bytes
before it (R154). -/
theorem lineTrace_of_opens (h : Opens s f) (hk : k ≤ 4) (hc : ChecksPass s (k - 1)) :
    lineTrace (60 * k * s.bitTicks + 1) 0 s = frameStarts s.bitTicks f k := by
  induction k with
  | zero =>
    rw [Nat.mul_zero, Nat.zero_mul, lineTrace_one_of_ne_bit 0 (by simp [h.idle])]
    rfl
  | succ k ih =>
    obtain ⟨t, ht, hin⟩ := reaches_byteStart (k := k) h (by omega) hc
    have hbyte := lineTrace_to_writeCheck hin hk (noReset_of_opens h ht (by omega))
    calc lineTrace (60 * (k + 1) * s.bitTicks + 1) 0 s
        = lineTrace (60 * k * s.bitTicks + 1 + 60 * s.bitTicks) 0 s := by congr 1; ring
      _ = lineTrace (60 * k * s.bitTicks + 1) 0 s ++ lineTrace (60 * s.bitTicks) (60 * k * s.bitTicks + 1) t := by
        rw [lineTrace_add _ 0 ht, Nat.zero_add]
      _ = frameStarts s.bitTicks f (k + 1) := by
        rw [ih (by omega) (checksPass_of_le hc (by omega)), hbyte, frameStarts_succ _ _ (by omega)]

/-- The trace of a transaction that completes with OK (R154). -/
theorem lineTrace_of_complete (h : Opens s f) (hc : ChecksPass s 4) :
    lineTrace (250 * s.bitTicks + 2) 0 s = frameStarts s.bitTicks f 5 := by
  obtain ⟨u, hu, hin⟩ := reaches_byteStart h (by omega) hc
  obtain ⟨t, ht, hsent⟩ := reaches_complete h hc
  obtain ⟨hp, -⟩ := hsent.complete rfl
  have hbyte := lineTrace_character hin (noReset_of_opens h hu (by omega))
  calc lineTrace (250 * s.bitTicks + 2) 0 s
      = lineTrace (250 * s.bitTicks + 1) 0 s := by
        rw [lineTrace_add 1 0 ht, lineTrace_one_of_ne_bit _ (by simp [hp]), List.append_nil]
    _ = lineTrace (60 * 4 * s.bitTicks + 1 + 10 * s.bitTicks) 0 s := by congr 1; ring
    _ = lineTrace (60 * 4 * s.bitTicks + 1) 0 s ++ lineTrace (10 * s.bitTicks) (60 * 4 * s.bitTicks + 1) u := by
      rw [lineTrace_add _ 0 hu, Nat.zero_add]
    _ = frameStarts s.bitTicks f 5 := by
      rw [lineTrace_of_opens h le_rfl (checksPass_of_le hc (by omega)), hbyte, frameStarts_succ (k := 4) _ _ (by omega)]

/-- The trace of a transaction that ends at the write check after gap `k` (R150, R154). -/
theorem lineTrace_of_failedWrite (h : Opens s f) (hk : k < 4) (hc : ChecksPass s k)
    (hdown : (s.pinsAt (60 * (k + 1) * s.bitTicks)).chanOk = false) :
    lineTrace (60 * (k + 1) * s.bitTicks + 2) 0 s = frameStarts s.bitTicks f (k + 1) := by
  obtain ⟨t, ht, hend⟩ := reaches_failedWrite h hk hc hdown
  obtain ⟨hp, -⟩ := hend.result
  rw [lineTrace_add 1 0 ht, lineTrace_one_of_ne_bit _ (by simp [hp]), List.append_nil, lineTrace_of_opens h hk hc]

/-- A request that ends at its accepting edge, in ERR_CONFIG or in ERR_PORT, puts no byte on the line (R182, R183). -/
theorem lineTrace_of_rejected (hl : Legal s) (hp : s.core.phase = .idle) (hr : s.pins.rst = false)
    (hv : s.pins.reqValid = true) (hexc : validWord s.pins.reqWord = false ∨ s.pins.chanOk = false) :
    lineTrace 2 0 s = [] := by
  obtain ⟨t, ht, hidle⟩ : ∃ t, step s = .next t ∧ t.core.phase = .idle := by
    cases hw : validWord s.pins.reqWord with
    | false => exact ⟨_, step_of_invalid_request hl hr hp hv hw, rfl⟩
    | true => exact ⟨_, step_of_channel_down hl hr hp hv hw (by simpa [hw] using hexc), rfl⟩
  rw [lineTrace_add 1 0 ((reaches_one_iff s t).mpr ht), lineTrace_one_of_ne_bit _ (by simp [hp]),
    lineTrace_one_of_ne_bit _ (by simp [hidle])]
  rfl

end

/-- Settles O59: `lineTrace_of_complete`, `lineTrace_of_failedWrite` and `lineTrace_of_rejected`. -/
theorem lineTraceOfATransaction : Obligations.LineTraceOfATransaction := by
  unfold Obligations.LineTraceOfATransaction
  exact ⟨fun s f h => ⟨lineTrace_of_complete h, fun k => lineTrace_of_failedWrite h⟩, fun s => lineTrace_of_rejected⟩

end Sys2Proof.Machine
end

section
/-! PROOFS. The exceptions of the block (R180 to R183): what `raise` writes, the report of a request that ends at its
accepting edge, and that the outcome and the byte count agree in IDLE after every step. -/

namespace Sys2Proof.Machine

open Sys2Proof.Safety

/-- Settles O29: `Regs.raise_eq_ended`. -/
theorem raiseWritesFourRegisters : Obligations.RaiseWritesFourRegisters := by
  unfold Obligations.RaiseWritesFourRegisters
  exact Regs.raise_eq_ended

/-! ### Requests that end at their accepting edge -/

/-- The report of a step that raises an outcome in IDLE with no byte sent: the line stays at mark and no frame register is
written (R181 to R183). -/
theorem report_of_step_raises {s : State} {e : Status} (hp : s.core.phase = .idle)
    (h : step s = .next (s.withCore (ended s.core e 0)).advance) :
    ∃ t, step s = .next t ∧ t.core = ended s.core e 0 ∧ t.outputs.status = e.code ∧ t.outputs.sentCount = 0 ∧
      s.core.txd = true ∧ t.core.txd = true ∧ t.core.frame = s.core.frame :=
  ⟨_, h, rfl, rfl, rfl, Regs.txd_of_ne_bit (by simp [hp]), rfl, rfl⟩

/-- The level codes that are no level (R83). -/
theorem levelValid_eq_false_iff (c : Code) : levelValid c = false ↔ c ∈ ([0, 6, 7] : List Code) := by
  revert c; decide

/-- The mode codes that are no mode (R82). -/
theorem modeOfCode_isSome_eq_false_iff (c : Code) :
    (modeOfCode c).isSome = false ↔ c ∈ ([5, 6, 7] : List Code) := by
  revert c; decide

/-- The invalid words: a mode code that is no mode, or a level code that is no level (R84, R182). -/
theorem validWord_eq_false_iff (w : ReqWord) : validWord w = false ↔
    modeField w ∈ ([5, 6, 7] : List Code) ∨ brightField w ∈ ([0, 6, 7] : List Code) ∨
      speedField w ∈ ([0, 6, 7] : List Code) := by
  rw [validWord_eq, Bool.and_eq_false_iff, Bool.and_eq_false_iff, modeOfCode_isSome_eq_false_iff,
    levelValid_eq_false_iff, levelValid_eq_false_iff]

/-- Settles O27: the report of the step that accepts an invalid word, and `validWord_eq_false_iff`. -/
theorem invalidRequestEndsInErrConfig : Obligations.InvalidRequestEndsInErrConfig := by
  unfold Obligations.InvalidRequestEndsInErrConfig
  exact ⟨fun s hl hp hr hv hw => report_of_step_raises hp (step_of_invalid_request hl hr hp hv hw),
    validWord_eq_false_iff⟩

/-- Settles O28: the report of the step that accepts a valid word with the channel down. -/
theorem closedChannelEndsInErrPort : Obligations.ClosedChannelEndsInErrPort := by
  unfold Obligations.ClosedChannelEndsInErrPort
  exact fun s hl hp hr hv hw hc => report_of_step_raises hp (step_of_channel_down hl hr hp hv hw hc)

/-! ### The report in IDLE -/

/-- While a transaction is open the report is not asked about (R180). -/
theorem reportSound_of_busy {r : Regs} (h : r.phase ≠ .idle) : ReportSound r := fun hp => absurd hp h

/-- Every edge of a legal state keeps the report sound: it writes an outcome with its count, it leaves the block busy, or
it is the quiet edge, which writes neither register (R142, R180). -/
theorem LegalEdge.reportSound {s : State} {c : Regs} (hc : LegalEdge s c) (hl : Legal s) (hs : ReportSound s.core) :
    ReportSound c := by
  cases hc with
  | reset | errConfig | errPort | finish => exact fun _ => rfl
  | failWrite hr hp =>
    obtain ⟨hi, -⟩ := sentCount_of_gap hl hp
    exact fun _ => ⟨Nat.succ_pos _, Nat.succ_le_succ hi⟩
  | quiet => exact hs
  | countTick _ hp => exact reportSound_of_busy hp
  | nextSlot _ hp | countGap _ hp => exact reportSound_of_busy (by simp [hp])
  | start | enterGap | nextByte => exact reportSound_of_busy (by simp)

/-- Settles O45, by `LegalEdge.reportSound`. -/
theorem reportStaysSound : Obligations.ReportStaysSound := by
  unfold Obligations.ReportStaysSound
  intro s t hs h
  obtain ⟨hl, c, hc, rfl⟩ := step_legalEdge h
  exact hc.reportSound hl hs

end Sys2Proof.Machine
end

section
/-! PROOFS. Reset edges (R210 to R212): what one leaves, and that another one leaves the same. -/

namespace Sys2Proof.Machine

open Sys2Proof.Safety

/-- A step of a reset edge leaves the registers of R50, with the frame registers of the current draw. -/
theorem step_core_of_reset {s t : State} (h : step s = .next t) (hr : s.pins.rst = true) :
    t.core = Regs.afterReset s.resetDraw := by
  obtain ⟨hl, -⟩ := step_legalEdge h
  obtain rfl : _ = t := Host.Outcome.next.inj ((step_of_reset hl hr).symm.trans h)
  rfl

/-- Reset writes R50's value to every register but the four frame registers. -/
theorem afterReset_agreeButFrame (draw : Nat) : AgreeButFrame (Regs.afterReset draw) Regs.reset := rfl

/-- After a reset edge the line is at mark. -/
@[simp] theorem Regs.afterReset_txd (draw : Nat) : (Regs.afterReset draw).txd = true := rfl

/-- After a reset edge the block is not busy. -/
@[simp] theorem Regs.afterReset_busy (draw : Nat) : (Regs.afterReset draw).busy = false := rfl

/-- After a reset edge the block is ready exactly while `rst` is 0 (R47). -/
@[simp] theorem Regs.afterReset_reqReady (draw : Nat) (rst : Bool) : (Regs.afterReset draw).reqReady rst = !rst := rfl

/-- The levels of the next cycle do not depend on the registers (R13). -/
@[simp] theorem State.withCore_nextPins (s : State) (c : Regs) : (s.withCore c).nextPins = s.nextPins := rfl

/-- Settles O14: the step of a reset edge is `Regs.afterReset` in every phase and with every input (`step_of_reset`). -/
theorem resetEdgeGivesTheResetValues : Obligations.ResetEdgeGivesTheResetValues := by
  unfold Obligations.ResetEdgeGivesTheResetValues
  intro s hl hr
  exact ⟨_, step_of_reset hl hr, by simp⟩

/-- Settles O15: a reset edge keeps the number of the free value (`step_resetDraw`), so the next one writes the same. -/
theorem furtherResetEdgesChangeNothing : Obligations.FurtherResetEdgesChangeNothing := by
  unfold Obligations.FurtherResetEdgesChangeNothing
  intro s hl hr
  obtain ⟨c, -, ht⟩ := step_of_legal hl
  refine ⟨_, ht, fun hr' => ?_⟩
  obtain ⟨d, -, hu⟩ := step_of_legal (step_legal hl ht)
  have hdraw := step_resetDraw ht
  rw [if_pos hr] at hdraw
  exact ⟨_, hu, by rw [step_core_of_reset hu hr', step_core_of_reset ht hr, hdraw]⟩

end Sys2Proof.Machine
end

section
/-! PROOFS. Host programs (R92, R213): a program never stops from a legal state, what its `RESET` lines leave, and which programs
run from power-up. -/

namespace Sys2Proof.Machine

open Sys2Proof.Safety

/-! ### Runs of programs from legal states -/

/-- The legal set does not speak of the input levels (R40). -/
theorem State.driven_legal {s : State} (hl : Legal s) (p : Pins) : Legal (s.driven p) := hl

/-- A host's run from a legal state answers a legal state with the same `BIT_TICKS`, whatever its directives. -/
theorem runHost_of_legal (toLast : Bool) (n : Nat) (ds : List Directive) {s : State} (hl : Legal s) :
    ∃ t, runHost toLast n ds s = .next t ∧ Legal t ∧ t.bitTicks = s.bitTicks := by
  induction n generalizing ds s with
  | zero => exact ⟨_, rfl, State.driven_legal hl _, rfl⟩
  | succ n ih =>
    rw [runHost_succ]
    cases runEnded toLast (hostCycle ds s.core s.pins).2 s.core with
    | true => exact ⟨_, rfl, State.driven_legal hl _, rfl⟩
    | false =>
      have hld := State.driven_legal hl (hostCycle ds s.core s.pins).1
      obtain ⟨c, -, hu⟩ := step_of_legal hld
      obtain ⟨t, ht, hlt, hbt⟩ := ih (directivesAfterEdge (hostCycle ds s.core s.pins).2 s.core) (step_legal hld hu)
      have hstep := step_bitTicks hu
      rw [hu]
      exact ⟨t, ht, hlt, hbt.trans hstep⟩

/-! ### The `RESET` directive -/

/-- The state after one cycle in which the host drives a reset and then the same levels again. -/
def State.resetCycle (s : State) : State :=
  ((s.driven { s.pins with rst := true, reqValid := false }).withCore (Regs.afterReset s.resetDraw)).advance

/-- The step of the cycle in which the host drives a reset. -/
theorem step_driven_reset {s : State} (hl : Legal s) :
    step (s.driven { s.pins with rst := true, reqValid := false }) = .next s.resetCycle :=
  step_of_reset (State.driven_legal hl _) rfl

/-- A reset cycle leaves a legal state (R40, R210). -/
theorem State.resetCycle_legal {s : State} (hl : Legal s) : Legal s.resetCycle :=
  step_legal (State.driven_legal hl _) (step_driven_reset hl)

/-- One cycle of a `RESET` directive is a reset cycle (R92). -/
theorem runProgram_reset_succ (k n : Nat) (rest : List Directive) {s : State} (hl : Legal s) :
    runProgram (k + 1) (.reset (n + 1) :: rest) s = runProgram k (.reset n :: rest) s.resetCycle := by
  have hc : hostCycle (.reset (n + 1) :: rest) s.core s.pins =
      ({ s.pins with rst := true, reqValid := false }, .reset (n + 1) :: rest) := rfl
  have hrun : runEnded false (.reset (n + 1) :: rest) s.core = false := by simp [runEnded]
  simp [runProgram, runHost_succ, hc, hrun, step_driven_reset hl, directivesAfterEdge]

/-- The state that the end of a `RESET` leaves is the same with one reset cycle more before it: the number of the free value
and the levels that the host keeps do not change (R92, R212). -/
theorem State.resetCycle_end (s : State) :
    (s.resetCycle.withCore (Regs.afterReset s.resetCycle.resetDraw)).driven s.resetCycle.pins.unpresented =
      (s.withCore (Regs.afterReset s.resetDraw)).driven s.pins.unpresented := rfl

/-- A `RESET` of `n + 1` cycles leaves the reset registers and then presents nothing (R50, R92). -/
theorem runProgram_reset (n : Nat) {s : State} (hl : Legal s) :
    runProgram (n + 1) [.reset (n + 1)] s =
      .next ((s.withCore (Regs.afterReset s.resetDraw)).driven s.pins.unpresented) := by
  induction n generalizing s with
  | zero => exact runProgram_reset_succ 0 0 [] hl
  | succ n ih => rw [runProgram_reset_succ (n + 1) (n + 1) [] hl, ih (State.resetCycle_legal hl), State.resetCycle_end]

/-! ### Programs from power-up -/

/-- `CHAN` lines take no cycle, so that they do not matter to how a program begins (R92, R213). -/
@[simp] theorem startsWithReset_chan_append (cs : List Bool) (ds : List Directive) :
    startsWithReset (cs.map .chan ++ ds) = startsWithReset ds := by
  induction cs with
  | nil => rfl
  | cons c cs ih => exact ih

/-- A program that does not begin with a reset is refused (R213). -/
theorem runFromPowerUp_of_no_reset (bt n : Nat) {ds : List Directive} (h : startsWithReset ds = false) :
    runFromPowerUp bt n ds = .refused .noReset := by
  simp [runFromPowerUp, h]

/-- A program that begins with a reset is run from the state after reset (R213). -/
theorem runFromPowerUp_of_reset (bt n : Nat) {ds : List Directive} (h : startsWithReset ds = true) :
    runFromPowerUp bt n ds = runProgram n ds (State.resetAt bt) := by
  simp [runFromPowerUp, h]

/-- Settles O60: how a program begins is decided after its `CHAN` lines (`startsWithReset_chan_append`), a program that runs
stays in the legal set (`runHost_of_legal`), and `runProgram_reset` gives the state after a `RESET`. -/
theorem runBeginsWithAReset : Obligations.RunBeginsWithAReset := by
  unfold Obligations.RunBeginsWithAReset
  refine ⟨fun bt n cs d rest hd => runFromPowerUp_of_no_reset bt n ?_, fun bt n k cs rest hbt => ?_, fun s n hl => ?_⟩
  · rw [startsWithReset_chan_append]
    obtain rfl | ⟨w, rfl⟩ | ⟨k, rfl⟩ := hd
    all_goals rfl
  · have hstart : startsWithReset (cs.map .chan ++ .reset (k + 1) :: rest) = true := startsWithReset_chan_append cs _
    rw [runFromPowerUp_of_reset bt n hstart]
    exact runHost_of_legal false n _ (resetAt_legal hbt)
  · exact ⟨_, runProgram_reset n hl, afterReset_agreeButFrame _, rfl, rfl, rfl⟩

end Sys2Proof.Machine
end
